-- ==== Sys2Proof/Word.lean ====
section
/-! DEFINITION. The fixed widths of B64C (00_scope.md R10): 8-bit stream bytes, 32-bit registers, the 24-bit group, 6-bit
slices, the 40-bit host transaction word. -/

namespace Sys2Proof

/-- A stream byte (00_scope.md R10: both stream ports are 8 bits wide). -/
abbrev Byte := BitVec 8

/-- A register value (00_scope.md R10: register width 32). -/
abbrev Word := BitVec 32

/-- The 24-bit group accumulator's type (10_state.md R30). -/
abbrev Group := BitVec 24

/-- A 6-bit value, the number an alphabet character stands for (00_scope.md R15). -/
abbrev Sextet := BitVec 6

/-- A 40-bit host transaction word, HTW (30_encoding.md R70). -/
abbrev Htw := BitVec 40

end Sys2Proof
end

