-- ==== Sys2Proof/Syntax.lean ====
section
/-! DEFINITION. The host's transactions: one constructor per row of spec/opcode_table.json (30_encoding.md R76), the reasons a
word is reserved (R77), and the assembler's spellings (R84, R85). -/

namespace Sys2Proof

/-- CTRL.MODE (10_state.md R21): 0 = Encode, 1 = Decode. -/
inductive Mode where
  | encode
  | decode
  deriving DecidableEq, Repr

/-- The 18 rows of 30_encoding.md R74. `ignored` is D[31:3] of a CTRL write, which the block ignores (R78); it is kept so that
no bit of a word is dropped. `a` of the reserved rows is the word index, 6 or 7 (see WellFormed). -/
inductive Instr where
  /-- Read CTRL (40_host_interface.md R109). -/
  | rdCtrl
  /-- Read STATUS (R110). -/
  | rdStatus
  /-- Read IN_LEN (R111). -/
  | rdInLen
  /-- Read IN_COUNT (R112). -/
  | rdInCount
  /-- Read OUT_COUNT (R113). -/
  | rdOutCount
  /-- Read ID (R114). -/
  | rdId
  /-- Read a reserved offset (R115). -/
  | rdRsvd (a : BitVec 3)
  /-- Configure without starting (R101). -/
  | cfg (mode : Mode) (ie : Bool) (ignored : BitVec 29)
  /-- Start an Encode (R102). -/
  | enc (ie : Bool) (ignored : BitVec 29)
  /-- Start a Decode (R103). -/
  | dec (ie : Bool) (ignored : BitVec 29)
  /-- Write STATUS: write 1 to clear (R105). -/
  | wrStatus (d : Word)
  /-- Write IN_LEN (R106). -/
  | wrInLen (d : Word)
  /-- Write IN_COUNT: no effect (R107). -/
  | wrInCount (d : Word)
  /-- Write OUT_COUNT: no effect (R107). -/
  | wrOutCount (d : Word)
  /-- Write ID: no effect (R107). -/
  | wrId (d : Word)
  /-- Write a reserved offset: no effect (R107). -/
  | wrRsvd (a : BitVec 3) (d : Word)
  /-- One byte on the input stream (41_stream_ports.md R132). -/
  | push (b : Byte)
  /-- One byte from the output stream (41_stream_ports.md R135). -/
  | pull
  deriving DecidableEq, Repr

/-- Why a 40-bit word is reserved (30_encoding.md R77): one name per clause. -/
inductive ReservedWord where
  /-- Z ≠ 0. -/
  | zNonZero
  /-- A read with D ≠ 0. -/
  | readWithData
  /-- A PUSH with A ≠ 0. -/
  | pushWithIndex
  /-- A PUSH with D[31:8] ≠ 0. -/
  | pushWithHighData
  /-- A PULL with A ≠ 0. -/
  | pullWithIndex
  /-- A PULL with D ≠ 0. -/
  | pullWithData
  deriving DecidableEq, Repr

/-- The assembler's register names (30_encoding.md R84), A = 0 to 7 in this order. -/
inductive RegName where
  | ctrl
  | status
  | inLen
  | inCount
  | outCount
  | id
  | rsvd6
  | rsvd7
  deriving DecidableEq, Repr

/-- One line of a host program (30_encoding.md R84). -/
inductive Asm where
  | rd (r : RegName)
  | wr (r : RegName) (v : Word)
  | push (b : Byte)
  | pull
  deriving DecidableEq, Repr

/-- The pseudo-instructions (30_encoding.md R85). WAITDONE is a loop of the host; `polls` is how many reads that loop made. -/
inductive Pseudo where
  | enc (ie : Bool)
  | dec (ie : Bool)
  | cfg (mode : Mode) (ie : Bool)
  | setLen (n : Word)
  | clrDone
  | clrErr
  | pushs (text : List Byte)
  | pulln (n : Nat)
  | waitDone (polls : Nat)
  deriving DecidableEq, Repr

end Sys2Proof
end

