-- ==== Sys2Proof/WellFormed.lean ====
section
/-! DEFINITION. Which terms of Instr are transactions of the table. Every operand's width is its type; the one bound left is that
RD_RSVD and WR_RSVD reach the word indexes 6 and 7 only (30_encoding.md R73, R74). -/

namespace Sys2Proof

/-- The word indexes of the reserved offsets 0x18 and 0x1C (10_state.md R28). -/
def isReservedIndex (a : BitVec 3) : Bool := a == 6#3 || a == 7#3

/-- The check: a row of the table carries the operands that row admits. -/
def Instr.wf : Instr → Bool
  | .rdRsvd a => isReservedIndex a
  | .wrRsvd a _ => isReservedIndex a
  | .rdCtrl => true
  | .rdStatus => true
  | .rdInLen => true
  | .rdInCount => true
  | .rdOutCount => true
  | .rdId => true
  | .cfg _ _ _ => true
  | .enc _ _ => true
  | .dec _ _ => true
  | .wrStatus _ => true
  | .wrInLen _ => true
  | .wrInCount _ => true
  | .wrOutCount _ => true
  | .wrId _ => true
  | .push _ => true
  | .pull => true

/-- A well-formed instruction. -/
abbrev Instr.WellFormed (i : Instr) : Prop := i.wf = true

end Sys2Proof
end

