-- ==== Sys2Proof/Decode.lean ====
section
/-! DEFINITION. Decoding a 40-bit host transaction word by the procedure of 30_encoding.md R73, the encoder from the same
layout (R70), and the match and mask table (R74). -/

namespace Sys2Proof

/-! ## The fields of a word (R70) -/

/-- K, bits 39:38: the kind. -/
def Htw.kind (w : Htw) : BitVec 2 := w.extractLsb' 38 2

/-- A, bits 37:35: the word index. -/
def Htw.index (w : Htw) : BitVec 3 := w.extractLsb' 35 3

/-- Z, bits 34:32: reserved. -/
def Htw.zbits (w : Htw) : BitVec 3 := w.extractLsb' 32 3

/-- D, bits 31:0: the data. -/
def Htw.data (w : Htw) : Word := w.extractLsb' 0 32

/-- The word with kind `k`, index `a`, Z = 0 and data `d` (R70). -/
def makeHtw (k : BitVec 2) (a : BitVec 3) (d : Word) : Htw := k ++ a ++ 0#3 ++ d

/-! ## The CTRL command word (R75) -/

/-- MODE as its bit: 0 = Encode, 1 = Decode. -/
def Mode.bit : Mode → Bool
  | .encode => false
  | .decode => true

/-- The mode a MODE bit stands for. -/
def Mode.ofBit (b : Bool) : Mode := if b then .decode else .encode

/-- D of a CTRL write: D[0] = START, D[1] = MODE, D[2] = IE, D[31:3] ignored (R75). -/
def ctrlData (start : Bool) (mode : Mode) (ie : Bool) (ignored : BitVec 29) : Word :=
  ignored ++ BitVec.ofBool ie ++ BitVec.ofBool mode.bit ++ BitVec.ofBool start

/-! ## Decoding (R73) -/

/-- The row of a register read of word index `a` (R73 item 2). -/
def readInstr (a : BitVec 3) : Instr :=
  if a = 0#3 then .rdCtrl
  else if a = 1#3 then .rdStatus
  else if a = 2#3 then .rdInLen
  else if a = 3#3 then .rdInCount
  else if a = 4#3 then .rdOutCount
  else if a = 5#3 then .rdId
  else .rdRsvd a

/-- The row of a CTRL write (R73 item 3): D[0] = 0 gives CFG, D[1:0] = 01 ENC, D[1:0] = 11 DEC. -/
def ctrlInstr (d : Word) : Instr :=
  let ie := d.getLsbD 2
  let ignored : BitVec 29 := d.extractLsb' 3 29
  if d.getLsbD 0 then
    if d.getLsbD 1 then .dec ie ignored else .enc ie ignored
  else .cfg (Mode.ofBit (d.getLsbD 1)) ie ignored

/-- The row of a register write of word index `a` with data `d` (R73 items 3 and 4). -/
def writeInstr (a : BitVec 3) (d : Word) : Instr :=
  if a = 0#3 then ctrlInstr d
  else if a = 1#3 then .wrStatus d
  else if a = 2#3 then .wrInLen d
  else if a = 3#3 then .wrInCount d
  else if a = 4#3 then .wrOutCount d
  else if a = 5#3 then .wrId d
  else .wrRsvd a d

/-- R73: every 40-bit word is one of the 18 rows or reserved, with the clause of R77 that makes it so. -/
def decode (w : Htw) : Except ReservedWord Instr :=
  if w.zbits ≠ 0#3 then .error .zNonZero
  else if w.kind = 0b00#2 then
    if w.data ≠ 0#32 then .error .readWithData else .ok (readInstr w.index)
  else if w.kind = 0b01#2 then .ok (writeInstr w.index w.data)
  else if w.kind = 0b10#2 then
    if w.index ≠ 0#3 then .error .pushWithIndex
    else if w.data.extractLsb' 8 24 ≠ 0#24 then .error .pushWithHighData
    else .ok (.push (w.data.extractLsb' 0 8))
  else
    if w.index ≠ 0#3 then .error .pullWithIndex
    else if w.data ≠ 0#32 then .error .pullWithData
    else .ok .pull

/-! ## Encoding (R70, R72) -/

/-- The word of an instruction. -/
def encode : Instr → Htw
  | .rdCtrl => makeHtw 0b00#2 0#3 0#32
  | .rdStatus => makeHtw 0b00#2 1#3 0#32
  | .rdInLen => makeHtw 0b00#2 2#3 0#32
  | .rdInCount => makeHtw 0b00#2 3#3 0#32
  | .rdOutCount => makeHtw 0b00#2 4#3 0#32
  | .rdId => makeHtw 0b00#2 5#3 0#32
  | .rdRsvd a => makeHtw 0b00#2 a 0#32
  | .cfg mode ie ignored => makeHtw 0b01#2 0#3 (ctrlData false mode ie ignored)
  | .enc ie ignored => makeHtw 0b01#2 0#3 (ctrlData true .encode ie ignored)
  | .dec ie ignored => makeHtw 0b01#2 0#3 (ctrlData true .decode ie ignored)
  | .wrStatus d => makeHtw 0b01#2 1#3 d
  | .wrInLen d => makeHtw 0b01#2 2#3 d
  | .wrInCount d => makeHtw 0b01#2 3#3 d
  | .wrOutCount d => makeHtw 0b01#2 4#3 d
  | .wrId d => makeHtw 0b01#2 5#3 d
  | .wrRsvd a d => makeHtw 0b01#2 a d
  | .push b => makeHtw 0b10#2 0#3 (b.setWidth 32)
  | .pull => makeHtw 0b11#2 0#3 0#32

/-! ## The match and mask table (R74) -/

/-- One row of the table: a word `w` is the row when `w &&& mask = pattern`. -/
structure OpRow where
  mnemonic : String
  pattern : Htw
  mask : Htw
  deriving DecidableEq, Repr

/-- The 18 rows of R74, in the table's order. -/
def opRows : List OpRow :=
  [⟨"RD_CTRL", 0x0000000000#40, 0xFFFFFFFFFF#40⟩,
   ⟨"RD_STATUS", 0x0800000000#40, 0xFFFFFFFFFF#40⟩,
   ⟨"RD_IN_LEN", 0x1000000000#40, 0xFFFFFFFFFF#40⟩,
   ⟨"RD_IN_COUNT", 0x1800000000#40, 0xFFFFFFFFFF#40⟩,
   ⟨"RD_OUT_COUNT", 0x2000000000#40, 0xFFFFFFFFFF#40⟩,
   ⟨"RD_ID", 0x2800000000#40, 0xFFFFFFFFFF#40⟩,
   ⟨"RD_RSVD", 0x3000000000#40, 0xF7FFFFFFFF#40⟩,
   ⟨"CFG", 0x4000000000#40, 0xFF00000001#40⟩,
   ⟨"ENC", 0x4000000001#40, 0xFF00000003#40⟩,
   ⟨"DEC", 0x4000000003#40, 0xFF00000003#40⟩,
   ⟨"WR_STATUS", 0x4800000000#40, 0xFF00000000#40⟩,
   ⟨"WR_IN_LEN", 0x5000000000#40, 0xFF00000000#40⟩,
   ⟨"WR_IN_COUNT", 0x5800000000#40, 0xFF00000000#40⟩,
   ⟨"WR_OUT_COUNT", 0x6000000000#40, 0xFF00000000#40⟩,
   ⟨"WR_ID", 0x6800000000#40, 0xFF00000000#40⟩,
   ⟨"WR_RSVD", 0x7000000000#40, 0xF700000000#40⟩,
   ⟨"PUSH", 0x8000000000#40, 0xFFFFFFFF00#40⟩,
   ⟨"PULL", 0xC000000000#40, 0xFFFFFFFFFF#40⟩]

/-- The word has the row's fixed bits. -/
abbrev OpRow.Matches (r : OpRow) (w : Htw) : Prop := w &&& r.mask = r.pattern

/-- The row's mnemonic of an instruction (R76). -/
def Instr.mnemonic : Instr → String
  | .rdCtrl => "RD_CTRL"
  | .rdStatus => "RD_STATUS"
  | .rdInLen => "RD_IN_LEN"
  | .rdInCount => "RD_IN_COUNT"
  | .rdOutCount => "RD_OUT_COUNT"
  | .rdId => "RD_ID"
  | .rdRsvd _ => "RD_RSVD"
  | .cfg _ _ _ => "CFG"
  | .enc _ _ => "ENC"
  | .dec _ _ => "DEC"
  | .wrStatus _ => "WR_STATUS"
  | .wrInLen _ => "WR_IN_LEN"
  | .wrInCount _ => "WR_IN_COUNT"
  | .wrOutCount _ => "WR_OUT_COUNT"
  | .wrId _ => "WR_ID"
  | .wrRsvd _ _ => "WR_RSVD"
  | .push _ => "PUSH"
  | .pull => "PULL"

/-! ## The host's reading of a table word -/

/-- The instruction of the low `nbits` bits of `w`, the bits above them zero; none where the word is reserved or is wider than
the one 40-bit format (R70). The HTW is one number, bit 0 its least significant bit (log entry 8). -/
def decodeTableWord (nbits w : Nat) : Option Instr :=
  let v := w % 2 ^ nbits
  if v < 2 ^ 40 then
    match decode (BitVec.ofNat 40 v) with
    | .ok i => some i
    | .error _ => none
  else none

end Sys2Proof
end

