-- ==== Sys2Proof/Config.lean ====
section
/-! DEFINITION. What the platform fixes and what the spec leaves unspecified, as uninterpreted constants: nothing in Lean can
compute or prove a value of any of them. -/

namespace Sys2Proof.Config

/-- `B64C_BASE`: where the platform's address map puts the 32-byte register space (20_memory.md R50). Log entry 9. -/
opaque base : Nat

/-- `B64C_IRQ_LINE`: the platform's line number for irq (60_exceptions.md R203). Log entry 9. -/
opaque irqLine : Nat

/-- reg_rdata outside the step that completes a read: any value (70_reset_and_hazards.md R234). Log entry 5. -/
opaque freeRegRdata : Nat → Word

/-- out_data while out_valid = 0: any value (41_stream_ports.md R134). Log entry 5. -/
opaque freeOutData : Nat → Byte

/-- reg_ack in a cycle with rst = 1: the spec states no value (70_reset_and_hazards.md R220). Log entry 7. -/
opaque freeRegAck : Nat → Bool

end Sys2Proof.Config
end

