-- ==== Sys2Proof/Machine/State.lean ====
section
/-! DEFINITION. The state of B64C (10_state.md R20) as plain data, its reset (R38), and the outcomes of a step. The block has no
memory (20_memory.md, opening), so State holds none. -/

namespace Sys2Proof.Machine

/-- What the host drives on the input pins in one clock cycle (10_state.md R37). -/
structure Cycle where
  /-- rst: synchronous reset, active high (70_reset_and_hazards.md R220). -/
  rst : Bool
  /-- reg_sel: a register access this cycle. -/
  regSel : Bool
  /-- reg_we: 1 = write, 0 = read. -/
  regWe : Bool
  /-- reg_addr: byte offset; bits 1:0 are ignored (20_memory.md R51). -/
  regAddr : BitVec 5
  /-- reg_wdata: write data. -/
  regWdata : Word
  /-- in_valid: the host offers in_data. -/
  inValid : Bool
  /-- in_data: the byte offered. -/
  inData : Byte
  /-- out_ready: the host takes out_data. -/
  outReady : Bool
  deriving DecidableEq, Repr

/-- One item of what the host drives: one event as a host transaction word (30_encoding.md R70), or one clock cycle of pins. -/
inductive HostInput where
  | htw (w : Htw)
  | cycle (c : Cycle)
  deriving DecidableEq, Repr

/-- The state of the block (R20), then the model's own fields. -/
structure State where
  /-- CTRL.MODE (R21). -/
  mode : Mode
  /-- CTRL.IE (R21). -/
  ie : Bool
  /-- STATUS.BUSY, the FSM's state (R22, R34). -/
  busy : Bool
  /-- STATUS.DONE (R22). -/
  done : Bool
  /-- STATUS.NOOUT (R22). -/
  noout : Bool
  /-- STATUS.INV (R22). -/
  inv : Bool
  /-- STATUS.TAIL (R22). -/
  tail : Bool
  /-- STATUS.LONE (R22). -/
  lone : Bool
  /-- STATUS.CMDERR (R22). -/
  cmderr : Bool
  /-- IN_LEN (R24). -/
  inLen : Word
  /-- IN_COUNT (R25). -/
  inCount : Word
  /-- OUT_COUNT (R26). -/
  outCount : Word
  /-- ACC (R30). -/
  acc : Group
  /-- CNT (R31). -/
  cnt : Fin 4
  /-- TERM (R32). -/
  term : Bool
  /-- ANYOUT (R33). -/
  anyout : Bool
  /-- OBUF, head first (R35). -/
  obuf : List Byte
  /-- The model's own: what the host drives next, oldest first. DESIGN CHOICE, log entry 1. -/
  inputs : List HostInput
  /-- The model's own: the value a register read returned in the last step (30_encoding.md R71). DESIGN CHOICE, log entry 4. -/
  regResp : Option Word
  /-- The model's own: the byte a PULL delivered in the last step (30_encoding.md R71). DESIGN CHOICE, log entry 4. -/
  outResp : Option Byte
  /-- The model's own: a counter the free values are applied to. DESIGN CHOICE, log entry 5. -/
  tick : Nat
  deriving DecidableEq, Repr

/-- The reasons the machine stops with a fault: none. B64C raises no exception of any kind, in any state
(60_exceptions.md R200), so nothing raises one and there is nothing unsafe to name. -/
inductive Fault where
  deriving DecidableEq, Repr

/-- The reasons a step is refused. -/
inductive Refusal where
  /-- Raised by an arm of exec whose instruction has no meaning yet. Safe: nothing is proved of a run past it. -/
  | notModelled (mnemonic : String)
  /-- Raised by the step for a reserved word (30_encoding.md R77: "A model refuses it: the refusal outcome, never a step").
  Safe: nothing is proved of a run past it. -/
  | reservedWord (why : ReservedWord)
  deriving DecidableEq, Repr

/-- The outcome of one event or step. -/
abbrev Result := Host.Outcome State Fault Refusal

/-- The state right after reset (10_state.md R38); the model's own fields as log entries 1, 4 and 5 name them. -/
def State.reset : State where
  mode := .encode
  ie := false
  busy := false
  done := false
  noout := false
  inv := false
  tail := false
  lone := false
  cmderr := false
  inLen := 0#32
  inCount := 0#32
  outCount := 0#32
  acc := 0#24
  cnt := 0
  term := false
  anyout := false
  obuf := []
  inputs := []
  regResp := none
  outResp := none
  tick := 0

end Sys2Proof.Machine
end

