-- ==== Sys2Proof/Machine/Flags.lean ====
section
/-! DEFINITION. The flag and status computations: the register views of CTRL and STATUS, irq, the stream handshakes, the
unspecified output ports, and NOOUT. -/

namespace Sys2Proof.Machine

/-- CTRL as read (40_host_interface.md R109): IE at bit 2, MODE at bit 1, START and all other bits 0. -/
def State.ctrlWord (s : State) : Word :=
  0#29 ++ BitVec.ofBool s.ie ++ BitVec.ofBool s.mode.bit ++ 0#1

/-- STATUS as read (40_host_interface.md R110): CMDERR 8, LONE 5, TAIL 4, INV 3, NOOUT 2, DONE 1, BUSY 0, all others 0. -/
def State.statusWord (s : State) : Word :=
  0#23 ++ BitVec.ofBool s.cmderr ++ 0#2 ++ BitVec.ofBool s.lone ++ BitVec.ofBool s.tail ++ BitVec.ofBool s.inv ++
    BitVec.ofBool s.noout ++ BitVec.ofBool s.done ++ BitVec.ofBool s.busy

/-- irq (10_state.md R29): CTRL.IE AND STATUS.DONE. -/
def State.irq (s : State) : Bool := s.ie && s.done

/-- The platform's interrupt line `line` as this block drives it (60_exceptions.md R203): irq on B64C_IRQ_LINE. -/
def State.irqLine (s : State) (line : Nat) : Bool := line == Config.irqLine && s.irq

/-- in_ready (41_stream_ports.md R131). -/
def State.inReady (s : State) : Bool := s.busy && s.inCount != s.inLen && s.obuf.isEmpty

/-- out_valid (41_stream_ports.md R134). -/
def State.outValid (s : State) : Bool := !s.obuf.isEmpty

/-- out_data (41_stream_ports.md R134): OBUF.head; a free value while out_valid = 0 (log entry 5). -/
def State.outData (s : State) : Byte :=
  match s.obuf with
  | b :: _ => b
  | [] => Config.freeOutData s.tick

/-- reg_rdata after a step: the value of the read it completed; otherwise a free value (70_reset_and_hazards.md R234, log entry 5). -/
def State.regRdata (s : State) : Word :=
  match s.regResp with
  | some v => v
  | none => Config.freeRegRdata s.tick

/-- reg_ack in cycle `c` (10_state.md R37): every access completes in its own cycle (log entry 7); with rst = 1 the spec states
none, a free value. -/
def State.regAck (s : State) (c : Cycle) : Bool := if c.rst then Config.freeRegAck s.tick else c.regSel

/-- The value NOOUT takes at completion (41_stream_ports.md R140): IN_LEN ≠ 0 and ANYOUT = 0. -/
def State.nooutAtCompletion (s : State) : Bool := s.inLen != 0#32 && !s.anyout

end Sys2Proof.Machine
end

