-- ==== Sys2Proof/Machine/Operands.lean ====
section
/-! DEFINITION. The operand forms: the register map (20_memory.md R50, R51), and the slices of the 24-bit accumulator
(10_state.md R30, 20_memory.md R57). -/

namespace Sys2Proof.Machine

/-- ID (10_state.md R27): "B64" and the interface revision 1. -/
def idWord : Word := 0x42363401#32

/-- The value a read of word index `a` returns (30_encoding.md R72, 40_host_interface.md R109 to R115). -/
def State.regValue (s : State) (a : BitVec 3) : Word :=
  if a = 0#3 then s.ctrlWord
  else if a = 1#3 then s.statusWord
  else if a = 2#3 then s.inLen
  else if a = 3#3 then s.inCount
  else if a = 4#3 then s.outCount
  else if a = 5#3 then idWord
  else 0#32

/-- The word index of a byte offset: reg_addr[4:2] (20_memory.md R51). -/
def wordIndex (addr : BitVec 5) : BitVec 3 := addr.extractLsb' 2 3

/-- The host address of word index `a` on the platform's bus (20_memory.md R50). -/
def hostAddress (a : BitVec 3) : Nat := Config.base + 4 * a.toNat

/-- The byte offset a host address selects; none outside the 32 bytes at B64C_BASE (20_memory.md R50). -/
def busOffset (address : Nat) : Option (BitVec 5) :=
  if Config.base ≤ address ∧ address < Config.base + 32 then some (BitVec.ofNat 5 (address - Config.base)) else none

/-- ACC[23-8k : 16-8k] <- b (42_encode.md R151). `k = 3` has no place in a 24-bit group and never occurs (10_state.md R31): the byte
lands nowhere (log entry 6). -/
def insertByte (acc : Group) (k : Fin 4) (b : Byte) : Group :=
  match k with
  | 0 => b ++ acc.extractLsb' 0 16
  | 1 => acc.extractLsb' 16 8 ++ b ++ acc.extractLsb' 0 8
  | 2 => acc.extractLsb' 8 16 ++ b
  | 3 => acc

/-- ACC[23-6k : 18-6k] <- v (43_decode.md R172). -/
def insertValue (acc : Group) (k : Fin 4) (v : Sextet) : Group :=
  match k with
  | 0 => v ++ acc.extractLsb' 0 18
  | 1 => acc.extractLsb' 18 6 ++ v ++ acc.extractLsb' 0 12
  | 2 => acc.extractLsb' 12 12 ++ v ++ acc.extractLsb' 0 6
  | 3 => acc.extractLsb' 6 18 ++ v

/-- Slice j of a group, j = 0 to 3: g[23-6j : 18-6j] (20_memory.md R57). -/
def sliceAt (g : Group) (j : Nat) : Sextet := g.extractLsb' (18 - 6 * j) 6

/-- Byte k of a group, k = 0 to 2: g[23-8k : 16-8k] (10_state.md R30). -/
def byteAt (g : Group) (k : Nat) : Byte := g.extractLsb' (16 - 8 * k) 8

end Sys2Proof.Machine
end

