-- ==== Sys2Proof/Machine/Tables.lean ====
section
/-! DEFINITION. The character tables: ELUT, DLUT and WS (30_encoding.md R79 to R83). They are ROM (10_state.md R36): constants, not
state. -/

namespace Sys2Proof.Machine

/-- The class of a Decode input byte (30_encoding.md R81). -/
inductive CharClass where
  | value (v : Sextet)
  | pad
  | invalid
  deriving DecidableEq, Repr

/-- The pad character `=` (R82). -/
def padChar : Byte := 0x3D#8

/-- ELUT (R80): the character of a 6-bit value, by R80's formula. -/
def elut (i : Sextet) : Byte :=
  let n : Byte := i.setWidth 8
  if n ≤ 25#8 then 0x41#8 + n
  else if n ≤ 51#8 then 0x61#8 + (n - 26#8)
  else if n ≤ 61#8 then 0x30#8 + (n - 52#8)
  else if n = 62#8 then 0x2B#8
  else 0x2F#8

/-- DLUT (R81): the class of a byte, by R81's ranges. -/
def dlut (b : Byte) : CharClass :=
  if 0x41#8 ≤ b ∧ b ≤ 0x5A#8 then .value ((b - 0x41#8).setWidth 6)
  else if 0x61#8 ≤ b ∧ b ≤ 0x7A#8 then .value ((b - 0x61#8 + 26#8).setWidth 6)
  else if 0x30#8 ≤ b ∧ b ≤ 0x39#8 then .value ((b - 0x30#8 + 52#8).setWidth 6)
  else if b = 0x2B#8 then .value 62#6
  else if b = 0x2F#8 then .value 63#6
  else if b = padChar then .pad
  else .invalid

/-- WS (R83): HT, LF, VT, FF, CR, SP. -/
def isWs (b : Byte) : Bool :=
  b == 0x09#8 || b == 0x0A#8 || b == 0x0B#8 || b == 0x0C#8 || b == 0x0D#8 || b == 0x20#8

end Sys2Proof.Machine
end

