-- ==== Sys2Proof/Machine/EncodePath.lean ====
section
/-! DEFINITION. The Encode datapath (42_encode.md): EncByte, EmitQuad, EncEnd. -/

namespace Sys2Proof.Machine

/-- The character of slice `j` of a group. -/
def charAt (g : Group) (j : Nat) : Byte := elut (sliceAt g j)

/-- EmitQuad (R152): the 4 characters of a full group, in order. -/
def emitQuad (g : Group) : List Byte := [charAt g 0, charAt g 1, charAt g 2, charAt g 3]

/-- The group is closed: `out` goes to OBUF's tail, ACC and CNT to 0. -/
def State.closeWith (s : State) (out : List Byte) : State :=
  { s with obuf := s.obuf ++ out, acc := 0#24, cnt := 0 }

/-- EncByte (R151). -/
def encByte (b : Byte) (s : State) : State :=
  let acc := insertByte s.acc s.cnt b
  if s.cnt = 2 then s.closeWith (emitQuad acc)
  else { s with acc := acc, cnt := s.cnt + 1 }

/-- EncEnd (R153 to R156): one byte left gives two characters and "==", two bytes three characters and "=", none nothing. CNT = 3
never occurs in Encode (10_state.md R31, log entry 6). -/
def encEnd (s : State) : State :=
  match s.cnt with
  | 0 => s
  | 1 => s.closeWith [charAt s.acc 0, charAt s.acc 1, padChar, padChar]
  | 2 => s.closeWith [charAt s.acc 0, charAt s.acc 1, charAt s.acc 2, padChar]
  | 3 => s

end Sys2Proof.Machine
end

