-- ==== Sys2Proof/Machine/DecodePath.lean ====
section
/-! DEFINITION. The Decode datapath (43_decode.md): DecByte, CloseQuad, AfterTerm, DecEnd. -/

namespace Sys2Proof.Machine

/-- The bytes CloseQuad emits for `c` values (R176): one if c ≥ 2, a second if c ≥ 3. -/
def closedBytes (acc : Group) (c : Fin 4) : List Byte :=
  match c with
  | 0 => []
  | 1 => []
  | 2 => [byteAt acc 0]
  | 3 => [byteAt acc 0, byteAt acc 1]

/-- CloseQuad (R176): a quad closed by `=` or by end of input with CNT values; a single value sets LONE. -/
def closeQuad (s : State) : State :=
  { s.closeWith (closedBytes s.acc s.cnt) with lone := s.lone || s.cnt == 1 }

/-- AfterTerm (R178): a byte after termination is discarded; it sets TAIL unless it is whitespace. -/
def afterTerm (b : Byte) (s : State) : State :=
  { s with tail := s.tail || !isWs b }

/-- A VALUE byte (R172, R173): the next position of the quad; the fourth value completes it at once. -/
def decValue (v : Sextet) (s : State) : State :=
  let acc := insertValue s.acc s.cnt v
  if s.cnt = 3 then s.closeWith [byteAt acc 0, byteAt acc 1, byteAt acc 2]
  else { s with acc := acc, cnt := s.cnt + 1 }

/-- A PAD byte (R174, R177): closes a quad that has values; an empty quad terminates decoding. -/
def decPad (s : State) : State :=
  if s.cnt = 0 then { s with term := true } else closeQuad s

/-- An INVALID byte (R175) is skipped; it sets INV unless it is whitespace. -/
def decInvalid (b : Byte) (s : State) : State :=
  { s with inv := s.inv || !isWs b }

/-- DecByte (R172). -/
def decByte (b : Byte) (s : State) : State :=
  if s.term then afterTerm b s
  else
    match dlut b with
    | .value v => decValue v s
    | .pad => decPad s
    | .invalid => decInvalid b s

/-- DecEnd (R179): an unterminated, non-empty quad is closed as `=` would close it. -/
def decEnd (s : State) : State :=
  if s.term = false ∧ s.cnt ≠ 0 then closeQuad s else s

end Sys2Proof.Machine
end

