-- ==== Sys2Proof/Machine/Ops.lean ====
section
/-! DEFINITION. The operations the transactions share: responses, Begin, StartWhileBusy, EndOfInput, CheckComplete, reset. B64C has no
exception entry and no return from one (60_exceptions.md R205, R206), so there is no such operation. -/

namespace Sys2Proof.Machine

/-- A read returns `v` on reg_rdata and changes nothing else (20_memory.md R52). -/
def State.respond (s : State) (v : Word) : State := { s with regResp := some v }

/-- A step begins: the last step's responses are gone and the free values are new ones (log entries 4, 5). -/
def State.openStep (s : State) : State :=
  { s with regResp := none, outResp := none, tick := s.tick + 1 }

/-- EndOfInput (41_stream_ports.md R139): close the last, partial group or quad. -/
def endOfInput (s : State) : State :=
  match s.mode with
  | .encode => encEnd s
  | .decode => decEnd s

/-- CheckComplete (41_stream_ports.md R140). -/
def checkComplete (s : State) : State :=
  if s.busy = true ∧ s.inCount = s.inLen ∧ s.obuf = [] then
    { s with busy := false, done := true, noout := s.nooutAtCompletion }
  else s

/-- EndOfInput at the point IN_COUNT = IN_LEN (41_stream_ports.md R138), then CheckComplete: the end of PUSH (R132). -/
def finishInput (s : State) : State :=
  checkComplete (if s.inCount = s.inLen then endOfInput s else s)

/-- The assignments of Begin (40_host_interface.md R108) before its end-of-input test. CMDERR, IN_LEN and OBUF are not written. -/
def State.startOperation (s : State) (mode : Mode) : State :=
  { s with
    mode := mode, done := false, noout := false, inv := false, tail := false, lone := false,
    inCount := 0#32, outCount := 0#32, anyout := false, acc := 0#24, cnt := 0, term := false, busy := true }

/-- Begin (40_host_interface.md R108): with IN_LEN = 0 the operation ends in the same event. -/
def beginOperation (mode : Mode) (s : State) : State :=
  let t := s.startOperation mode
  checkComplete (if t.inLen = 0#32 then endOfInput t else t)

/-- StartWhileBusy (40_host_interface.md R104). -/
def startWhileBusy (ie : Bool) (s : State) : State := { s with ie := ie, cmderr := true }

/-- ENC and DEC (40_host_interface.md R102, R103). -/
def startCommand (mode : Mode) (ie : Bool) (s : State) : State :=
  if s.busy then startWhileBusy ie s else beginOperation mode { s with ie := ie }

/-- The byte of an accepted PUSH goes to the datapath of the running mode (41_stream_ports.md R132). -/
def datapathByte (b : Byte) (s : State) : State :=
  match s.mode with
  | .encode => encByte b s
  | .decode => decByte b s

/-- An accepted PUSH (41_stream_ports.md R132). -/
def acceptByte (b : Byte) (s : State) : State :=
  finishInput (datapathByte b { s with inCount := s.inCount + 1#32 })

/-- A PULL that takes `b` and leaves `rest` in OBUF (41_stream_ports.md R135). -/
def deliverByte (b : Byte) (rest : List Byte) (s : State) : State :=
  checkComplete { s with obuf := rest, outCount := s.outCount + 1#32, anyout := true, outResp := some b }

/-- A rising edge with rst = 1 (70_reset_and_hazards.md R220, R222): every item of 10_state.md R38 takes its reset value. What the host
drives next and the counter of the free values are the model's own and stay. -/
def State.applyReset (s : State) : State := { State.reset with inputs := s.inputs, tick := s.tick }

end Sys2Proof.Machine
end

