-- ==== Sys2Proof/Machine/Command.lean ====
section
/-! DEFINITION. The commands, writes to CTRL (40_host_interface.md R101 to R104, R108). -/

namespace Sys2Proof.Machine

/-- CFG (R101): IE is written; MODE only while no operation runs. -/
def execCfg (mode : Mode) (ie : Bool) (s : State) : Result :=
  .next { s with ie := ie, mode := if s.busy then s.mode else mode }

/-- ENC (R102). -/
def execEnc (ie : Bool) (s : State) : Result := .next (startCommand .encode ie s)

/-- DEC (R103). -/
def execDec (ie : Bool) (s : State) : Result := .next (startCommand .decode ie s)

end Sys2Proof.Machine
end

