-- ==== Sys2Proof/Machine/RegRead.lean ====
section
/-! DEFINITION. The register reads (40_host_interface.md R109 to R115). -/

namespace Sys2Proof.Machine

/-- RD_CTRL (R109). -/
def execRdCtrl (s : State) : Result := .next (s.respond (s.regValue 0#3))

/-- RD_STATUS (R110). -/
def execRdStatus (s : State) : Result := .next (s.respond (s.regValue 1#3))

/-- RD_IN_LEN (R111). -/
def execRdInLen (s : State) : Result := .next (s.respond (s.regValue 2#3))

/-- RD_IN_COUNT (R112). -/
def execRdInCount (s : State) : Result := .next (s.respond (s.regValue 3#3))

/-- RD_OUT_COUNT (R113). -/
def execRdOutCount (s : State) : Result := .next (s.respond (s.regValue 4#3))

/-- RD_ID (R114). -/
def execRdId (s : State) : Result := .next (s.respond (s.regValue 5#3))

/-- RD_RSVD (R115): the reserved offsets read 0. -/
def execRdRsvd (s : State) : Result := .next (s.respond 0#32)

end Sys2Proof.Machine
end

