-- ==== Sys2Proof/Machine/RegWrite.lean ====
section
/-! DEFINITION. The other register writes (40_host_interface.md R105 to R107). -/

namespace Sys2Proof.Machine

/-- WR_STATUS (R105): D[1] = 1 clears DONE, D[8] = 1 clears CMDERR. -/
def execWrStatus (d : Word) (s : State) : Result :=
  .next { s with done := s.done && !d.getLsbD 1, cmderr := s.cmderr && !d.getLsbD 8 }

/-- WR_IN_LEN (R106). -/
def execWrInLen (d : Word) (s : State) : Result :=
  .next (if s.busy then { s with cmderr := true } else { s with inLen := d })

/-- WR_IN_COUNT (R107): no effect. -/
def execWrInCount (s : State) : Result := .next s

/-- WR_OUT_COUNT (R107): no effect. -/
def execWrOutCount (s : State) : Result := .next s

/-- WR_ID (R107): no effect. -/
def execWrId (s : State) : Result := .next s

/-- WR_RSVD (R107): no effect. -/
def execWrRsvd (s : State) : Result := .next s

end Sys2Proof.Machine
end

