-- ==== Sys2Proof/Machine/Stream.lean ====
section
/-! DEFINITION. The stream transfers (41_stream_ports.md R130 to R135). A transfer that is not enabled is no event: the block does not
change and the host waits (log entry 2). -/

namespace Sys2Proof.Machine

/-- PUSH (R132). -/
def execPush (b : Byte) (s : State) : Result :=
  .next (if s.inReady then acceptByte b s else s)

/-- PULL (R135). -/
def execPull (s : State) : Result :=
  match s.obuf with
  | b :: rest => .next (deliverByte b rest s)
  | [] => .next s

end Sys2Proof.Machine
end

