-- ==== Sys2Proof/Machine/Dispatch.lean ====
section
/-! DEFINITION. One event: each transaction's meaning. -/

namespace Sys2Proof.Machine

/-- The meaning of each row of 30_encoding.md R74. -/
def exec (i : Instr) (s : State) : Host.Outcome State Fault Refusal :=
  match i with
  | .rdCtrl => Sys2Proof.Machine.execRdCtrl s
  | .rdStatus => Sys2Proof.Machine.execRdStatus s
  | .rdInLen => Sys2Proof.Machine.execRdInLen s
  | .rdInCount => Sys2Proof.Machine.execRdInCount s
  | .rdOutCount => Sys2Proof.Machine.execRdOutCount s
  | .rdId => Sys2Proof.Machine.execRdId s
  | .rdRsvd _ => Sys2Proof.Machine.execRdRsvd s
  | .cfg mode ie _ => Sys2Proof.Machine.execCfg mode ie s
  | .enc ie _ => Sys2Proof.Machine.execEnc ie s
  | .dec ie _ => Sys2Proof.Machine.execDec ie s
  | .wrStatus d => Sys2Proof.Machine.execWrStatus d s
  | .wrInLen d => Sys2Proof.Machine.execWrInLen d s
  | .wrInCount _ => Sys2Proof.Machine.execWrInCount s
  | .wrOutCount _ => Sys2Proof.Machine.execWrOutCount s
  | .wrId _ => Sys2Proof.Machine.execWrId s
  | .wrRsvd _ _ => Sys2Proof.Machine.execWrRsvd s
  | .push b => Sys2Proof.Machine.execPush b s
  | .pull => Sys2Proof.Machine.execPull s

end Sys2Proof.Machine
end

