-- ==== Sys2Proof/Machine/HostPort.lean ====
section
/-! DEFINITION. What the host drives, item by item: one host transaction word, or one clock cycle of pins (30_encoding.md R71,
70_reset_and_hazards.md R220, R230, R231). -/

namespace Sys2Proof.Machine

/-- The transfers that are not enabled now (41_stream_ports.md R132, R135): the host waits (log entry 2). -/
def waits (i : Instr) (s : State) : Bool :=
  match i with
  | .push _ => !s.inReady
  | .pull => !s.outValid
  | .rdCtrl => false
  | .rdStatus => false
  | .rdInLen => false
  | .rdInCount => false
  | .rdOutCount => false
  | .rdId => false
  | .rdRsvd _ => false
  | .cfg _ _ _ => false
  | .enc _ _ => false
  | .dec _ _ => false
  | .wrStatus _ => false
  | .wrInLen _ => false
  | .wrInCount _ => false
  | .wrOutCount _ => false
  | .wrId _ => false
  | .wrRsvd _ _ => false

/-- The register access of a cycle (30_encoding.md R71, K = 00 and K = 01); reg_addr[1:0] are ignored (20_memory.md R51). -/
def Cycle.regEvent (c : Cycle) : Option Instr :=
  if c.regSel then
    some (if c.regWe then writeInstr (wordIndex c.regAddr) c.regWdata else readInstr (wordIndex c.regAddr))
  else none

/-- The stream transfer of a cycle (30_encoding.md R71, K = 10 and K = 11), judged on the state `s` at the start of the cycle
(70_reset_and_hazards.md R231). -/
def Cycle.streamEvent (c : Cycle) (s : State) : Option Instr :=
  if c.inValid && s.inReady then some (.push c.inData)
  else if c.outReady && s.outValid then some .pull
  else none

/-- An event, if there is one. -/
def execIf (i : Option Instr) (s : State) : Result :=
  match i with
  | some i => exec i s
  | none => .next s

/-- The next event on the state an event left; a stop stays a stop. -/
def andThen (r : Result) (k : State → Result) : Result :=
  match r with
  | .next s => k s
  | .fault f => .fault f
  | .refused e => .refused e

/-- One clock cycle: with rst = 1 the reset and nothing else (R220); otherwise the register access first and the stream transfer second
(R231). -/
def runCycle (c : Cycle) (s : State) : Result :=
  if c.rst then .next s.applyReset
  else andThen (execIf c.regEvent s) (execIf (c.streamEvent s))

/-- One host transaction word `w`, with `rest` still to come: a reserved word is refused (30_encoding.md R77); a transfer that is not
enabled leaves the word where it is; any other is performed. -/
def runWord (w : Htw) (rest : List HostInput) (s : State) : Result :=
  match decode w with
  | .error why => .refused (.reservedWord why)
  | .ok i => if waits i s then .next s else exec i { s with inputs := rest }

/-- One step: the next item of what the host drives. With nothing to perform the block does not change: it has no step of its own
(00_scope.md R8, log entry 3). -/
def performNext (s : State) : Result :=
  match s.inputs with
  | [] => .next s.openStep
  | .htw w :: rest => runWord w rest s.openStep
  | .cycle c :: rest => runCycle c { s.openStep with inputs := rest }

end Sys2Proof.Machine
end

