-- ==== Sys2Proof/Machine/Assembly.lean ====
section
/-! DEFINITION. The assembler's lines and pseudo-instructions as transactions (30_encoding.md R84, R85). -/

namespace Sys2Proof

/-- A = 0 to 7 (R84). -/
def RegName.index : RegName → BitVec 3
  | .ctrl => 0#3
  | .status => 1#3
  | .inLen => 2#3
  | .inCount => 3#3
  | .outCount => 4#3
  | .id => 5#3
  | .rsvd6 => 6#3
  | .rsvd7 => 7#3

/-- The word of a program line (R84). -/
def Asm.word : Asm → Htw
  | .rd r => makeHtw 0b00#2 r.index 0#32
  | .wr r v => makeHtw 0b01#2 r.index v
  | .push b => makeHtw 0b10#2 0#3 (b.setWidth 32)
  | .pull => makeHtw 0b11#2 0#3 0#32

/-- The lines a pseudo-instruction stands for (R85). -/
def Pseudo.expand : Pseudo → List Asm
  | .enc ie => [.wr .ctrl (if ie then 0x5#32 else 0x1#32)]
  | .dec ie => [.wr .ctrl (if ie then 0x7#32 else 0x3#32)]
  | .cfg mode ie => [.wr .ctrl ((if mode.bit then 0x2#32 else 0#32) ||| (if ie then 0x4#32 else 0#32))]
  | .setLen n => [.wr .inLen n]
  | .clrDone => [.wr .status 0x2#32]
  | .clrErr => [.wr .status 0x100#32]
  | .pushs text => text.map .push
  | .pulln n => List.replicate n .pull
  | .waitDone polls => List.replicate polls (.rd .status)

end Sys2Proof
end

