-- ==== Sys2Proof/Safety.lean ====
section
/-! DEFINITION. The terms claims are made in: the invariants of 10_state.md R39, reachability, the codec as the source states it on
whole byte sequences (42_encode.md, 43_decode.md), and one whole operation as a host runs it (70_reset_and_hazards.md R224). -/

namespace Sys2Proof.Machine

/-! ## The invariants of R39 -/

/-- R39 item 1: IDLE means OBUF empty, ACC = 0 and CNT = 0. -/
abbrev IdleIsEmpty (s : State) : Prop := s.busy = false → s.obuf = [] ∧ s.acc = 0#24 ∧ s.cnt = 0

/-- R39 item 2: BUSY means DONE = 0 and NOOUT = 0. -/
abbrev BusyHidesDone (s : State) : Prop := s.busy = true → s.done = false ∧ s.noout = false

/-- R39 item 3: BUSY means IN_COUNT ≤ IN_LEN. -/
abbrev CountWithinLength (s : State) : Prop := s.busy = true → s.inCount ≤ s.inLen

/-- R39 item 4: OBUF holds at most 4 bytes, and an input byte is accepted only when it is empty. -/
abbrev BufferBounded (s : State) : Prop := s.obuf.length ≤ 4 ∧ (s.inReady = true → s.obuf.length = 0)

/-- R39 item 5: in Encode CNT ≤ 2; in Decode TERM = 1 means ACC = 0 and CNT = 0. -/
abbrev PartialGroupLegal (s : State) : Prop :=
  (s.mode = .encode → s.cnt ≤ 2) ∧ (s.mode = .decode → s.term = true → s.acc = 0#24 ∧ s.cnt = 0)

/-- How many of ACC's top bits are filled (10_state.md R30): 8 a byte in Encode, 6 a value in Decode. -/
def filledBits (mode : Mode) (cnt : Fin 4) : Nat :=
  match mode with
  | .encode => 8 * cnt.val
  | .decode => 6 * cnt.val

/-- R39 item 6: the unfilled positions of ACC are 0. -/
abbrev UnfilledZero (s : State) : Prop :=
  ∀ j : Nat, j < 24 - filledBits s.mode s.cnt → s.acc.getLsbD j = false

/-- The six invariants of R39. -/
abbrev StateRules (s : State) : Prop :=
  IdleIsEmpty s ∧ BusyHidesDone s ∧ CountWithinLength s ∧ BufferBounded s ∧ PartialGroupLegal s ∧ UnfilledZero s

/-- What R139 and R140 leave of an operation whose input has ended: while it still runs, there is output to deliver (41_stream_ports.md
R144) and the last group is closed. DEDUCED: R39 is kept by every step only together with this. -/
abbrev EndSettled (s : State) : Prop :=
  s.busy = true → s.inCount = s.inLen → s.obuf ≠ [] ∧ s.acc = 0#24 ∧ s.cnt = 0

/-- The invariant every step keeps: R39 and EndSettled. -/
abbrev Invariant (s : State) : Prop := StateRules s ∧ EndSettled s

/-- The table of 10_state.md R38. -/
abbrev AsAfterReset (t : State) : Prop :=
  t.mode = .encode ∧ t.ie = false ∧
  (t.busy = false ∧ t.done = false ∧ t.noout = false ∧ t.inv = false ∧ t.tail = false ∧ t.lone = false ∧ t.cmderr = false) ∧
  t.inLen = 0#32 ∧ t.inCount = 0#32 ∧ t.outCount = 0#32 ∧ t.acc = 0#24 ∧ t.cnt = 0 ∧ t.term = false ∧ t.anyout = false ∧
  t.obuf = [] ∧ t.irq = false ∧ t.inReady = false ∧ t.outValid = false

/-- The states a host can bring the block to: from reset, by driving anything and by stepping. -/
inductive Reachable : State → Prop where
  | reset : Reachable State.reset
  | drive (s : State) (l : List HostInput) : Reachable s → Reachable { s with inputs := l }
  | step (s t : State) : Reachable s → Sys2Proof.Machine.step s = .next t → Reachable t

/-! ## What the host drives in the next step -/

/-- The host's next item is a cycle with rst = 1 (70_reset_and_hazards.md R220). -/
abbrev DrivesReset (s : State) : Prop := ∃ c rest, s.inputs = .cycle c :: rest ∧ c.rst = true

/-- The host's next item is the word of `i`, or a cycle whose register access is `i`. -/
abbrev Drives (s : State) (i : Instr) : Prop :=
  (∃ w rest, s.inputs = .htw w :: rest ∧ decode w = .ok i) ∨
    ∃ c rest, s.inputs = .cycle c :: rest ∧ c.rst = false ∧ c.regEvent = some i

/-- The host's next item offers a byte: the word of a PUSH, or a cycle with in_valid = 1 (41_stream_ports.md R130). -/
abbrev OffersByte (s : State) : Prop :=
  (∃ b, Drives s (.push b)) ∨ ∃ c rest, s.inputs = .cycle c :: rest ∧ c.rst = false ∧ c.inValid = true

/-- The host's next item takes a byte: the word of a PULL, or a cycle with out_ready = 1 (41_stream_ports.md R133). -/
abbrev AcceptsByte (s : State) : Prop :=
  Drives s .pull ∨ ∃ c rest, s.inputs = .cycle c :: rest ∧ c.rst = false ∧ c.outReady = true

/-! ## The codec on whole byte sequences -/

/-- The first character of a quad: byte0[7:2] (20_memory.md R57 slice 0). -/
def firstChar (a : Byte) : Byte := elut (a.extractLsb' 2 6)

/-- The second character: byte0[1:0] above byte1[7:4] (20_memory.md R57 slice 1). -/
def secondChar (a b : Byte) : Byte := elut (a.extractLsb' 0 2 ++ b.extractLsb' 4 4)

/-- The third character: byte1[3:0] above byte2[7:6] (20_memory.md R57 slice 2). -/
def thirdChar (b c : Byte) : Byte := elut (b.extractLsb' 0 4 ++ c.extractLsb' 6 2)

/-- The fourth character: byte2[5:0] (20_memory.md R57 slice 3). -/
def fourthChar (c : Byte) : Byte := elut (c.extractLsb' 0 6)

/-- Encode of a whole input (42_encode.md R151 to R157): groups of 3 bytes; a last partial group is zero-padded and its quad filled
up with `=`. Written on the bytes, without the accumulator. -/
def encodeText : List Byte → List Byte
  | [] => []
  | [a] => [firstChar a, secondChar a 0#8, padChar, padChar]
  | [a, b] => [firstChar a, secondChar a b, thirdChar b 0#8, padChar]
  | a :: b :: c :: rest => [firstChar a, secondChar a b, thirdChar b c, fourthChar c] ++ encodeText rest

/-- {byte0, byte1, byte2}, the missing bytes 0 (10_state.md R30, 20_memory.md R57). -/
def groupOf (bs : List Byte) : Group := bs.getD 0 0#8 ++ bs.getD 1 0#8 ++ bs.getD 2 0#8

/-- {v0, v1, v2, v3}, the missing values 0 (10_state.md R30, 43_decode.md R180). -/
def quadOf (vs : List Sextet) : Group := vs.getD 0 0#6 ++ vs.getD 1 0#6 ++ vs.getD 2 0#6 ++ vs.getD 3 0#6

/-- The open group of an Encode holds the bytes `bs`. -/
abbrev HoldsBytes (s : State) (bs : List Byte) : Prop := s.cnt.val = bs.length ∧ bs.length ≤ 2 ∧ s.acc = groupOf bs

/-- The open quad of a Decode holds the values `vs`. -/
abbrev HoldsValues (s : State) (vs : List Sextet) : Prop := s.cnt.val = vs.length ∧ s.acc = quadOf vs

/-- The bytes of a quad of values (43_decode.md R176, R180): none for fewer than 2 values, then one a further value. -/
def quadBytes : List Sextet → List Byte
  | [v0, v1] => [v0 ++ v1.extractLsb' 4 2]
  | [v0, v1, v2] => [v0 ++ v1.extractLsb' 4 2, v1.extractLsb' 0 4 ++ v2.extractLsb' 2 4]
  | [v0, v1, v2, v3] =>
    [v0 ++ v1.extractLsb' 4 2, v1.extractLsb' 0 4 ++ v2.extractLsb' 2 4, v2.extractLsb' 0 2 ++ v3]
  | _ => []

/-- Decode of the rest of an input, with the values `vs` gathered since the last quad closed (43_decode.md R170 to R179): a fourth
value closes the quad, `=` closes it or, empty, ends the output, other bytes are skipped, the end closes it. -/
def decodeFrom (vs : List Sextet) : List Byte → List Byte
  | [] => quadBytes vs
  | b :: rest =>
    match dlut b with
    | .value v => if vs.length = 3 then quadBytes (vs ++ [v]) ++ decodeFrom [] rest else decodeFrom (vs ++ [v]) rest
    | .pad => if vs = [] then [] else quadBytes vs ++ decodeFrom [] rest
    | .invalid => decodeFrom vs rest

/-- The flags a Decode reports of the rest of an input: INV, TAIL and LONE (43_decode.md R175, R176, R178). After termination only TAIL
can be set. -/
structure DecodeFlags where
  inv : Bool
  tail : Bool
  lone : Bool
  deriving DecidableEq, Repr

/-- The flags of the rest of an input, with the values `vs` gathered since the last quad closed: a skipped byte that is not whitespace
sets INV, a quad closed with one value sets LONE, a byte after termination that is not whitespace sets TAIL. -/
def flagsFrom (vs : List Sextet) : List Byte → DecodeFlags
  | [] => ⟨false, false, decide (vs.length = 1)⟩
  | b :: rest =>
    match dlut b with
    | .value v => if vs.length = 3 then flagsFrom [] rest else flagsFrom (vs ++ [v]) rest
    | .pad =>
      if vs = [] then ⟨false, rest.any fun c => !isWs c, false⟩
      else { flagsFrom [] rest with lone := (flagsFrom [] rest).lone || decide (vs.length = 1) }
    | .invalid => { flagsFrom vs rest with inv := (flagsFrom vs rest).inv || !isWs b }

/-- Decode of a whole input. -/
def decodeText (text : List Byte) : List Byte := decodeFrom [] text

/-- The number of VALUE bytes of a text (43_decode.md R186). -/
def valueCount (text : List Byte) : Nat :=
  text.countP fun b => match dlut b with
    | .value _ => true
    | .pad => false
    | .invalid => false

/-! ## One whole operation, as a host runs it (R224) -/

/-- The outcome of part of an operation: the bytes the host took, and the state. -/
abbrev Transfer := Host.Outcome (List Byte × State) Fault Refusal

/-- The next part of an operation, the bytes of both parts in order. -/
def Transfer.andThen (r : Transfer) (k : State → Transfer) : Transfer :=
  match r with
  | .next (out, s) =>
    match k s with
    | .next (more, t) => .next (out ++ more, t)
    | .fault f => .fault f
    | .refused e => .refused e
  | .fault f => .fault f
  | .refused e => .refused e

/-- One event as a step performs it, with the byte it delivers. -/
def event (i : Instr) (s : State) : Transfer :=
  match exec i s.openStep with
  | .next t => .next (t.outResp.toList, t)
  | .fault f => .fault f
  | .refused e => .refused e

/-- `n` PULLs. -/
def drain : Nat → State → Transfer
  | 0, s => .next ([], s)
  | n + 1, s => Transfer.andThen (event .pull s) (drain n)

/-- The host offers `input` in order, taking every output byte before the next input byte (41_stream_ports.md R137, R144). -/
def feed : List Byte → State → Transfer
  | [], s => .next ([], s)
  | b :: rest, s =>
    Transfer.andThen (event (.push b) s) fun t => Transfer.andThen (drain t.obuf.length t) (feed rest)

/-- One operation (R224 items 2 to 4): WR_IN_LEN, START, then the transfers. -/
def operate (start : Instr) (input : List Byte) (s : State) : Transfer :=
  Transfer.andThen (event (.wrInLen (BitVec.ofNat 32 input.length)) s) fun t =>
    Transfer.andThen (event start t) (feed input)

end Sys2Proof.Machine
end

