-- ==== Sys2Proof/Certificates/Slice0/Obligations.lean ====
section
/-! DEFINITION. The statements for the provers. Each docstring names the rule it formalises. A state equality `t = s with …` is the
instruction's frame as well: every field not named is unchanged. -/

open Sys2Proof Sys2Proof.Machine

/-! ## Encoding -/

/-- 30_encoding.md R70, R73, R74: decoding the word of a well-formed instruction gives it back, every operand at every value. -/
def Obligations.DecodeOfEncodeIsTheInstruction : Prop :=
  ∀ i : Instr, i.WellFormed → decode (encode i) = .ok i

/-- 30_encoding.md R73: a word that decodes is the word of the well-formed instruction it decodes to, so no two words mean the same. -/
def Obligations.EncodeOfDecodeIsTheWord : Prop :=
  ∀ (w : Htw) (i : Instr), decode w = .ok i → i.WellFormed ∧ encode i = w

/-- 30_encoding.md R73 against R74: a word decodes to an instruction exactly when it matches that instruction's row of the match and
mask table, and it matches no other row. -/
def Obligations.EveryWordHasOneRowOrIsReserved : Prop :=
  ∀ w : Htw,
    (∀ i, decode w = .ok i →
      ∀ r ∈ opRows, r.Matches w ↔ r.mnemonic = i.mnemonic) ∧
    (∀ why, decode w = .error why → ∀ r ∈ opRows, ¬ r.Matches w)

/-- 30_encoding.md R77: the words that are reserved, clause by clause, and that a step refuses such a word whatever the state. -/
def Obligations.ReservedWordsAreExactlyTheMalformedOnes : Prop :=
  (∀ (k : BitVec 2) (a z : BitVec 3) (d : Word),
    (∃ why, decode (k ++ a ++ z ++ d) = .error why) ↔
      z ≠ 0#3 ∨ (k = 0b00#2 ∧ d ≠ 0#32) ∨
        (k = 0b10#2 ∧ (a ≠ 0#3 ∨ ∃ j, 8 ≤ j ∧ d.getLsbD j = true)) ∨
        (k = 0b11#2 ∧ (a ≠ 0#3 ∨ d ≠ 0#32))) ∧
  ∀ (s : State) (w : Htw) (rest : List HostInput) (why : ReservedWord),
    s.inputs = .htw w :: rest → decode w = .error why → step s = .refused (.reservedWord why)

/-- 30_encoding.md R73 item 3 and R75: the CTRL command word of a write with A = 0. -/
def Obligations.CtrlWritesDecodeByStartAndMode : Prop :=
  ∀ d : Word,
    (d.getLsbD 0 = false →
      decode (0x40#8 ++ d) = .ok (.cfg (if d.getLsbD 1 then .decode else .encode) (d.getLsbD 2) (d.extractLsb' 3 29))) ∧
    (d.getLsbD 0 = true → d.getLsbD 1 = false → decode (0x40#8 ++ d) = .ok (.enc (d.getLsbD 2) (d.extractLsb' 3 29))) ∧
    (d.getLsbD 0 = true → d.getLsbD 1 = true → decode (0x40#8 ++ d) = .ok (.dec (d.getLsbD 2) (d.extractLsb' 3 29)))

/-- 30_encoding.md R74, 95_test_vectors.md L2-H and L2-R: words written out from the table (a sanity statement). -/
def Obligations.WrittenOutWordsDecode : Prop :=
  decode 0x0800000000#40 = .ok .rdStatus ∧
  decode 0x3800000000#40 = .ok (.rdRsvd 7#3) ∧
  decode 0x4000000006#40 = .ok (.cfg .decode true 0#29) ∧
  decode 0x4000000007#40 = .ok (.dec true 0#29) ∧
  decode 0x4800000102#40 = .ok (.wrStatus 0x102#32) ∧
  decode 0x5000000002#40 = .ok (.wrInLen 2#32) ∧
  decode 0x8000000041#40 = .ok (.push 0x41#8) ∧
  decode 0xC000000000#40 = .ok .pull ∧
  decode 0x8800000041#40 = .error .pushWithIndex

/-- 30_encoding.md R84: every line of the assembler is a transaction, register name by register name: `RD` a read, `WR` a write of that
register; `WR CTRL` is CFG, ENC or DEC by R73. -/
def Obligations.AssemblerLinesAreTransactions : Prop :=
  (decode (Asm.rd .ctrl).word = .ok .rdCtrl ∧ decode (Asm.rd .status).word = .ok .rdStatus ∧
    decode (Asm.rd .inLen).word = .ok .rdInLen ∧ decode (Asm.rd .inCount).word = .ok .rdInCount ∧
    decode (Asm.rd .outCount).word = .ok .rdOutCount ∧ decode (Asm.rd .id).word = .ok .rdId ∧
    decode (Asm.rd .rsvd6).word = .ok (.rdRsvd 6#3) ∧ decode (Asm.rd .rsvd7).word = .ok (.rdRsvd 7#3)) ∧
  (∀ v : Word,
    decode (Asm.wr .ctrl v).word = .ok (
      if v.getLsbD 0 then
        if v.getLsbD 1 then .dec (v.getLsbD 2) (v.extractLsb' 3 29) else .enc (v.getLsbD 2) (v.extractLsb' 3 29)
      else .cfg (if v.getLsbD 1 then .decode else .encode) (v.getLsbD 2) (v.extractLsb' 3 29)) ∧
    decode (Asm.wr .status v).word = .ok (.wrStatus v) ∧ decode (Asm.wr .inLen v).word = .ok (.wrInLen v) ∧
    decode (Asm.wr .inCount v).word = .ok (.wrInCount v) ∧ decode (Asm.wr .outCount v).word = .ok (.wrOutCount v) ∧
    decode (Asm.wr .id v).word = .ok (.wrId v) ∧
    decode (Asm.wr .rsvd6 v).word = .ok (.wrRsvd 6#3 v) ∧ decode (Asm.wr .rsvd7 v).word = .ok (.wrRsvd 7#3 v)) ∧
  (∀ b : Byte, decode (Asm.push b).word = .ok (.push b)) ∧
  decode Asm.pull.word = .ok .pull

/-- 30_encoding.md R85: what the pseudo-instructions stand for (of WAITDONE, the reads its loop makes). -/
def Obligations.PseudoInstructionsExpand : Prop :=
  (∀ ie, (Pseudo.enc ie).expand.map (fun l => decode l.word) = [.ok (.enc ie 0#29)]) ∧
  (∀ ie, (Pseudo.dec ie).expand.map (fun l => decode l.word) = [.ok (.dec ie 0#29)]) ∧
  (∀ m ie, (Pseudo.cfg m ie).expand.map (fun l => decode l.word) = [.ok (.cfg m ie 0#29)]) ∧
  (∀ n, (Pseudo.setLen n).expand.map (fun l => decode l.word) = [.ok (.wrInLen n)]) ∧
  Pseudo.clrDone.expand.map (fun l => decode l.word) = [.ok (.wrStatus 0x2#32)] ∧
  Pseudo.clrErr.expand.map (fun l => decode l.word) = [.ok (.wrStatus 0x100#32)] ∧
  (∀ text, (Pseudo.pushs text).expand.map (fun l => decode l.word) = text.map (fun b => .ok (.push b))) ∧
  (∀ n, (Pseudo.pulln n).expand.map (fun l => decode l.word) = List.replicate n (.ok .pull)) ∧
  (∀ polls, (Pseudo.waitDone polls).expand.map (fun l => decode l.word) = List.replicate polls (.ok .rdStatus))

/-- 30_encoding.md R80 to R83: the five ranges of ELUT; DLUT's VALUE entries are its inverse and `=` alone is PAD, so every other byte is
INVALID; the six whitespace codes, each INVALID. That the codes are ASCII and the set is isspace's is the spec's general knowledge, log
entry 12. -/
def Obligations.CharacterTablesAreInverse : Prop :=
  (∀ v : Sextet,
    (v.toNat ≤ 25 → (elut v).toNat = 0x41 + v.toNat) ∧
    (26 ≤ v.toNat → v.toNat ≤ 51 → (elut v).toNat = 0x61 + (v.toNat - 26)) ∧
    (52 ≤ v.toNat → v.toNat ≤ 61 → (elut v).toNat = 0x30 + (v.toNat - 52)) ∧
    (v.toNat = 62 → elut v = 0x2B#8) ∧ (v.toNat = 63 → elut v = 0x2F#8)) ∧
  (∀ (b : Byte) (v : Sextet), dlut b = .value v ↔ b = elut v) ∧
  (∀ b : Byte, dlut b = .pad ↔ b = 0x3D#8) ∧
  (∀ b : Byte, isWs b = true ↔ b ∈ [0x09#8, 0x0A#8, 0x0B#8, 0x0C#8, 0x0D#8, 0x20#8]) ∧
  (∀ b : Byte, isWs b = true → dlut b = .invalid)

/-- 20_memory.md R50, R51: on the platform's bus the block answers at the 32 bytes from B64C_BASE (an uninterpreted constant, log entry
9), the four byte addresses of a word reach that word, and no other address reaches the block. -/
def Obligations.BusAddressesSelectTheWord : Prop :=
  (∀ (a : BitVec 3) (low : Nat), low < 4 → ∃ o, busOffset (hostAddress a + low) = some o ∧ wordIndex o = a) ∧
  ∀ address : Nat, (address < Config.base ∨ Config.base + 32 ≤ address) → busOffset address = none

/-! ## Register reads -/

/-- 40_host_interface.md R109. -/
def Obligations.ReadCtrlReturnsModeAndIe : Prop :=
  decode 0x0000000000#40 = .ok .rdCtrl ∧
  ∀ s : State, ∃ v : Word, exec .rdCtrl s = .next { s with regResp := some v } ∧
    v.getLsbD 0 = false ∧ v.getLsbD 1 = decide (s.mode = .decode) ∧ v.getLsbD 2 = s.ie ∧
    ∀ j, 3 ≤ j → v.getLsbD j = false

/-- 40_host_interface.md R110; DONE and NOOUT read 0 while BUSY in every state that meets 10_state.md R39 item 2. -/
def Obligations.ReadStatusReturnsTheFlags : Prop :=
  decode 0x0800000000#40 = .ok .rdStatus ∧
  ∀ s : State, ∃ v : Word, exec .rdStatus s = .next { s with regResp := some v } ∧
    v.getLsbD 0 = s.busy ∧ v.getLsbD 1 = s.done ∧ v.getLsbD 2 = s.noout ∧ v.getLsbD 3 = s.inv ∧
    v.getLsbD 4 = s.tail ∧ v.getLsbD 5 = s.lone ∧ v.getLsbD 6 = false ∧ v.getLsbD 7 = false ∧
    v.getLsbD 8 = s.cmderr ∧ (∀ j, 9 ≤ j → v.getLsbD j = false) ∧
    (BusyHidesDone s → v.getLsbD 0 = true → v.getLsbD 1 = false ∧ v.getLsbD 2 = false)

/-- 40_host_interface.md R111, R112, R113. -/
def Obligations.ReadLengthAndCounts : Prop :=
  decode 0x1000000000#40 = .ok .rdInLen ∧ decode 0x1800000000#40 = .ok .rdInCount ∧
  decode 0x2000000000#40 = .ok .rdOutCount ∧
  ∀ s : State,
    exec .rdInLen s = .next { s with regResp := some s.inLen } ∧
    exec .rdInCount s = .next { s with regResp := some s.inCount } ∧
    exec .rdOutCount s = .next { s with regResp := some s.outCount }

/-- 40_host_interface.md R114, R115. -/
def Obligations.ReadIdAndReservedAreConstant : Prop :=
  decode 0x2800000000#40 = .ok .rdId ∧ decode 0x3000000000#40 = .ok (.rdRsvd 6#3) ∧
  decode 0x3800000000#40 = .ok (.rdRsvd 7#3) ∧
  ∀ s : State,
    exec .rdId s = .next { s with regResp := some 0x42363401#32 } ∧
    ∀ a, exec (.rdRsvd a) s = .next { s with regResp := some 0#32 }

/-- 20_memory.md R51, R52: a read by pins changes no state, the low two address bits do not matter, and it is the read of
reg_addr[4:2]: the register at that word index is the one whose value comes back. -/
def Obligations.RegisterReadsChangeNoState : Prop :=
  ∀ (s : State) (c : Cycle), c.rst = false → c.regSel = true → c.regWe = false → c.inValid = false → c.outReady = false →
    ∃ v, runCycle c s = .next { s with regResp := some v } ∧
      exec (readInstr (c.regAddr.extractLsb' 2 3)) s = .next { s with regResp := some v } ∧
      ∀ low : BitVec 2, runCycle { c with regAddr := c.regAddr.extractLsb' 2 3 ++ low } s = .next { s with regResp := some v }

/-! ## Commands and register writes -/

/-- 40_host_interface.md R101: the word of a CFG, its effect, and irq right after it. -/
def Obligations.CfgConfiguresWithoutStarting : Prop :=
  (∀ d : Word, d.getLsbD 0 = false → ∃ m ign, decode (0x40#8 ++ d) = .ok (.cfg m (d.getLsbD 2) ign) ∧
    (m = .decode ↔ d.getLsbD 1 = true)) ∧
  ∀ (s : State) (m : Mode) (ie : Bool) (ign : BitVec 29),
    exec (.cfg m ie ign) s = .next { s with ie := ie, mode := if s.busy then s.mode else m } ∧
    ∀ t, exec (.cfg m ie ign) s = .next t → t.irq = (ie && s.done)

/-- 40_host_interface.md R104: StartWhileBusy. -/
def Obligations.StartWhileBusyOnlySetsCmderr : Prop :=
  ∀ (s : State) (ie : Bool) (ign : BitVec 29), s.busy = true →
    exec (.enc ie ign) s = .next { s with ie := ie, cmderr := true } ∧
    exec (.dec ie ign) s = .next { s with ie := ie, cmderr := true }

/-- 40_host_interface.md R102, R108: the word of an ENC, what it does while an operation runs (R104), and Begin. OBUF is empty while IDLE
(10_state.md R39 item 1). -/
def Obligations.EncBeginsAnEncode : Prop :=
  (∀ d : Word, d.getLsbD 0 = true → d.getLsbD 1 = false → ∃ ign, decode (0x40#8 ++ d) = .ok (.enc (d.getLsbD 2) ign)) ∧
  ∀ (s : State) (ie : Bool) (ign : BitVec 29),
    (s.busy = true → exec (.enc ie ign) s = .next { s with ie := ie, cmderr := true }) ∧
    (s.busy = false → s.obuf = [] →
      exec (.enc ie ign) s = .next { s with
        mode := .encode, ie := ie, busy := decide (s.inLen ≠ 0#32), done := decide (s.inLen = 0#32), noout := false,
        inv := false, tail := false, lone := false, inCount := 0#32, outCount := 0#32, anyout := false,
        acc := 0#24, cnt := 0, term := false })

/-- 40_host_interface.md R103, R108: the word of a DEC, what it does while an operation runs (R104), and Begin. OBUF is empty while IDLE
(10_state.md R39 item 1). -/
def Obligations.DecBeginsADecode : Prop :=
  (∀ d : Word, d.getLsbD 0 = true → d.getLsbD 1 = true → ∃ ign, decode (0x40#8 ++ d) = .ok (.dec (d.getLsbD 2) ign)) ∧
  ∀ (s : State) (ie : Bool) (ign : BitVec 29),
    (s.busy = true → exec (.dec ie ign) s = .next { s with ie := ie, cmderr := true }) ∧
    (s.busy = false → s.obuf = [] →
      exec (.dec ie ign) s = .next { s with
        mode := .decode, ie := ie, busy := decide (s.inLen ≠ 0#32), done := decide (s.inLen = 0#32), noout := false,
        inv := false, tail := false, lone := false, inCount := 0#32, outCount := 0#32, anyout := false,
        acc := 0#24, cnt := 0, term := false })

/-- 40_host_interface.md R105: the word of a WR_STATUS, its effect, and irq right after DONE is cleared. -/
def Obligations.WriteStatusClearsDoneAndCmderr : Prop :=
  ∀ (s : State) (d : Word),
    decode (0x48#8 ++ d) = .ok (.wrStatus d) ∧
    exec (.wrStatus d) s = .next { s with
      done := if d.getLsbD 1 then false else s.done, cmderr := if d.getLsbD 8 then false else s.cmderr } ∧
    (BusyHidesDone s → s.busy = true → d.getLsbD 8 = false → exec (.wrStatus d) s = .next s) ∧
    ∀ t, exec (.wrStatus d) s = .next t → d.getLsbD 1 = true → t.irq = false

/-- 40_host_interface.md R106. -/
def Obligations.WriteInLenSetsTheLength : Prop :=
  ∀ (s : State) (d : Word),
    decode (0x50#8 ++ d) = .ok (.wrInLen d) ∧
    (s.busy = false → exec (.wrInLen d) s = .next { s with inLen := d }) ∧
    (s.busy = true → exec (.wrInLen d) s = .next { s with cmderr := true })

/-- 40_host_interface.md R107. -/
def Obligations.ReadOnlyWritesHaveNoEffect : Prop :=
  ∀ (s : State) (d : Word),
    decode (0x58#8 ++ d) = .ok (.wrInCount d) ∧ exec (.wrInCount d) s = .next s ∧
    decode (0x60#8 ++ d) = .ok (.wrOutCount d) ∧ exec (.wrOutCount d) s = .next s ∧
    decode (0x68#8 ++ d) = .ok (.wrId d) ∧ exec (.wrId d) s = .next s ∧
    decode (0x70#8 ++ d) = .ok (.wrRsvd 6#3 d) ∧ decode (0x78#8 ++ d) = .ok (.wrRsvd 7#3 d) ∧
    ∀ a, exec (.wrRsvd a d) s = .next s

/-- 20_memory.md R52: every register write but a START is idempotent. -/
def Obligations.RegisterWritesAreIdempotent : Prop :=
  ∀ (a : BitVec 3) (d : Word) (s t : State), (a = 0#3 → d.getLsbD 0 = false) →
    exec (writeInstr a d) s = .next t → exec (writeInstr a d) t = .next t

/-! ## Stream transfers -/

/-- 41_stream_ports.md R130 to R132, R135: a transfer that is not enabled is no event. That the word waits at the head of what the host
drives is the model's choice, log entry 2. -/
def Obligations.TransfersNotEnabledWait : Prop :=
  (∀ (s : State) (b : Byte), (s.busy = false ∨ s.inCount = s.inLen ∨ s.obuf ≠ []) → exec (.push b) s = .next s) ∧
  (∀ s : State, s.obuf = [] → exec .pull s = .next s) ∧
  (∀ (s : State) (b : Byte) (rest : List HostInput), s.inputs = .htw (0x80000000#32 ++ b) :: rest →
    (s.busy = false ∨ s.inCount = s.inLen ∨ s.obuf ≠ []) → step s = .next s.openStep) ∧
  (∀ (s : State) (rest : List HostInput), s.inputs = .htw 0xC000000000#40 :: rest → s.obuf = [] →
    step s = .next s.openStep)

/-- 41_stream_ports.md R135, R140: PULL takes OBUF's head; the one that empties OBUF after end of input completes the operation. -/
def Obligations.PullDeliversTheHead : Prop :=
  ∀ (s : State) (b : Byte) (rest : List Byte), s.obuf = b :: rest →
    (¬ (s.busy = true ∧ s.inCount = s.inLen ∧ rest = []) →
      exec .pull s = .next { s with obuf := rest, outCount := s.outCount + 1#32, anyout := true, outResp := some b }) ∧
    (s.busy = true → s.inCount = s.inLen → rest = [] →
      exec .pull s = .next { s with
        obuf := [], outCount := s.outCount + 1#32, anyout := true, outResp := some b,
        busy := false, done := true, noout := false })

/-- 42_encode.md R151, R152: an Encode PUSH that is not the last. The third byte of a group gives its four characters, said with encodeText,
the model's second writing of those rules, log entry 16. -/
def Obligations.EncodePushTakesOneByte : Prop :=
  ∀ (s : State) (b : Byte) (bs : List Byte), s.busy = true → s.mode = .encode → s.obuf = [] → HoldsBytes s bs →
    s.inCount ≠ s.inLen → s.inCount + 1#32 ≠ s.inLen →
    (bs.length < 2 →
      exec (.push b) s = .next { s with
        inCount := s.inCount + 1#32, acc := groupOf (bs ++ [b]), cnt := s.cnt + 1 }) ∧
    (bs.length = 2 →
      exec (.push b) s = .next { s with
        inCount := s.inCount + 1#32, acc := 0#24, cnt := 0, obuf := encodeText (bs ++ [b]) })

/-- 42_encode.md R153 to R157: the last byte of an Encode closes the group with its characters and `=`, said with encodeText, the model's
second writing of those rules, log entry 16. -/
def Obligations.LastEncodePushPadsTheQuad : Prop :=
  ∀ (s : State) (b : Byte) (bs : List Byte), s.busy = true → s.mode = .encode → s.obuf = [] → HoldsBytes s bs →
    s.inCount ≠ s.inLen → s.inCount + 1#32 = s.inLen →
    exec (.push b) s = .next { s with
      inCount := s.inLen, acc := 0#24, cnt := 0, obuf := encodeText (bs ++ [b]) }

/-- 43_decode.md R172, R173: a VALUE byte that is not the last byte. -/
def Obligations.DecodePushAddsAValue : Prop :=
  ∀ (s : State) (b : Byte) (v : Sextet) (vs : List Sextet), s.busy = true → s.mode = .decode → s.obuf = [] →
    s.term = false → HoldsValues s vs → dlut b = .value v → s.inCount ≠ s.inLen → s.inCount + 1#32 ≠ s.inLen →
    (vs.length < 3 →
      exec (.push b) s = .next { s with
        inCount := s.inCount + 1#32, acc := quadOf (vs ++ [v]), cnt := s.cnt + 1 }) ∧
    (vs.length = 3 →
      exec (.push b) s = .next { s with
        inCount := s.inCount + 1#32, acc := 0#24, cnt := 0, obuf := quadBytes (vs ++ [v]) })

/-- 43_decode.md R174, R176, R177: a PAD byte that is not the last byte. -/
def Obligations.DecodePadClosesOrTerminates : Prop :=
  ∀ (s : State) (vs : List Sextet), s.busy = true → s.mode = .decode → s.obuf = [] →
    s.term = false → HoldsValues s vs → s.inCount ≠ s.inLen → s.inCount + 1#32 ≠ s.inLen →
    (vs = [] → exec (.push 0x3D#8) s = .next { s with inCount := s.inCount + 1#32, term := true }) ∧
    (vs ≠ [] →
      exec (.push 0x3D#8) s = .next { s with
        inCount := s.inCount + 1#32, acc := 0#24, cnt := 0, obuf := quadBytes vs,
        lone := s.lone || decide (vs.length = 1) })

/-- 43_decode.md R175, R178: a skipped byte and a byte after termination, not the last. -/
def Obligations.DecodeSkipsAndDiscards : Prop :=
  ∀ (s : State) (b : Byte), s.busy = true → s.mode = .decode → s.obuf = [] →
    s.inCount ≠ s.inLen → s.inCount + 1#32 ≠ s.inLen →
    (s.term = false → dlut b = .invalid →
      exec (.push b) s = .next { s with inCount := s.inCount + 1#32, inv := s.inv || !isWs b }) ∧
    (s.term = true →
      exec (.push b) s = .next { s with inCount := s.inCount + 1#32, tail := s.tail || !isWs b })

/-- 43_decode.md R172, R176, R178, R179, 41_stream_ports.md R139, R140: the last byte of a Decode closes what is open and sets the flags it
must; if nothing is left to deliver the operation completes in the same event. What the byte and the closing give is said with decodeFrom
and flagsFrom, the model's second writing of those rules, log entry 16. -/
def Obligations.LastDecodePushEndsTheInput : Prop :=
  ∀ (s : State) (b : Byte) (vs : List Sextet), s.busy = true → s.mode = .decode → s.obuf = [] → HoldsValues s vs →
    (s.term = true → vs = []) → s.inCount < s.inLen → s.inCount + 1#32 = s.inLen →
    ∃ t, exec (.push b) s = .next t ∧
      t.obuf = (if s.term then [] else decodeFrom vs [b]) ∧ t.acc = 0#24 ∧ t.cnt = 0 ∧ t.inCount = s.inLen ∧
      t.term = (s.term || decide (vs = [] ∧ dlut b = .pad)) ∧
      t.inv = (s.inv || (!s.term && (flagsFrom vs [b]).inv)) ∧ t.lone = (s.lone || (!s.term && (flagsFrom vs [b]).lone)) ∧
      t.tail = (s.tail || (s.term && !isWs b)) ∧
      (t.obuf = [] → t.busy = false ∧ t.done = true ∧ t.noout = !s.anyout) ∧
      (t.obuf ≠ [] → t.busy = true ∧ t.done = s.done ∧ t.noout = s.noout)

/-- 42_encode.md R150, 43_decode.md R170, 41_stream_ports.md R132: what no PUSH changes, in every state; and what an Encode PUSH leaves. -/
def Obligations.PushFrame : Prop :=
  ∀ (s t : State) (b : Byte), exec (.push b) s = .next t →
    t.mode = s.mode ∧ t.ie = s.ie ∧ t.cmderr = s.cmderr ∧ t.inLen = s.inLen ∧ t.outCount = s.outCount ∧
    t.anyout = s.anyout ∧ t.inputs = s.inputs ∧ t.regResp = s.regResp ∧ t.outResp = s.outResp ∧ t.tick = s.tick ∧
    (s.mode = .encode → t.term = s.term ∧ t.inv = s.inv ∧ t.tail = s.tail ∧ t.lone = s.lone) ∧
    (s.mode = .decode → s.term = true → t.inv = s.inv ∧ t.lone = s.lone ∧ t.term = true) ∧
    (t.done ≠ s.done ∨ t.noout ≠ s.noout → s.busy = true ∧ t.busy = false)

/-! ## The machine -/

/-- 60_exceptions.md R200 (no transaction faults), 40_host_interface.md R100 (every register transaction completes). For a PUSH or a PULL
that is not enabled 41_stream_ports.md R132 and R135 say there is no step: that exec answers a next state there too, the same state, is the
model's choice, log entry 2. -/
def Obligations.EveryTransactionCompletes : Prop :=
  ∀ (i : Instr) (s : State), ∃ t, exec i s = .next t

/-- A step performs the word the host drives (30_encoding.md R70, R71): exec on the state with the word taken and the last responses
gone, when the transfer is enabled (41_stream_ports.md R132, R135). -/
def Obligations.StepPerformsTheDecodedWord : Prop :=
  ∀ (s : State) (i : Instr) (rest : List HostInput), i.WellFormed → s.inputs = .htw (encode i) :: rest →
    (∀ b, i = .push b → s.inReady = true) → (i = .pull → s.outValid = true) →
    step s = exec i { s with inputs := rest, regResp := none, outResp := none, tick := s.tick + 1 }

/-- 30_encoding.md R77, 60_exceptions.md R200: a step is refused exactly on a word that matches no row of the table. That a step on a
transfer that is not enabled (R132, R135: no step) answers a next state is the model's choice, log entry 2; that a step with nothing driven
does is the model's reading of 00_scope.md R8, log entry 3. -/
def Obligations.OnlyReservedWordsAreRefused : Prop :=
  ∀ s : State,
    (∃ t, step s = .next t) ↔
      ∀ (w : Htw) (rest : List HostInput), s.inputs = .htw w :: rest → ∃ r ∈ opRows, r.Matches w

/-- 10_state.md R38: the reset state, and the state after a cycle with rst = 1, whatever else the host drives in that cycle and whatever
the state was (70_reset_and_hazards.md R220 to R222). reg_rdata and out_data are unspecified there: nothing is said of them. -/
def Obligations.ResetCycleRestoresTheResetState : Prop :=
  AsAfterReset State.reset ∧
  ∀ (s : State) (c : Cycle) (rest : List HostInput), s.inputs = .cycle c :: rest → c.rst = true →
    ∃ t, step s = .next t ∧ AsAfterReset t

/-- 70_reset_and_hazards.md R231: at most one stream transfer a cycle, judged at its start, after the register access. -/
def Obligations.RegisterAccessPrecedesTheTransfer : Prop :=
  ∀ (s : State) (c : Cycle) (rest : List HostInput), s.inputs = .cycle c :: rest → c.rst = false →
    (s.inReady = true → s.outValid = false) ∧
    ∃ u, (c.regSel = false → u = { s.openStep with inputs := rest }) ∧
      (c.regSel = true → c.regWe = true →
        exec (writeInstr (c.regAddr.extractLsb' 2 3) c.regWdata) { s.openStep with inputs := rest } = .next u) ∧
      (c.regSel = true → c.regWe = false →
        exec (readInstr (c.regAddr.extractLsb' 2 3)) { s.openStep with inputs := rest } = .next u) ∧
      (c.inValid = true → s.inReady = true → step s = exec (.push c.inData) u) ∧
      (c.outReady = true → s.outValid = true → step s = exec .pull u) ∧
      ((c.inValid = false ∨ s.inReady = false) → (c.outReady = false ∨ s.outValid = false) → step s = .next u)

/-- 10_state.md R39: the reset state meets the invariants. -/
def Obligations.ResetMeetsTheInvariant : Prop := Invariant State.reset

/-- 10_state.md R39: every step keeps the invariants, from every state that meets them, whatever the host drives. -/
def Obligations.EveryStepKeepsTheInvariant : Prop :=
  ∀ s t : State, Invariant s → step s = .next t → Invariant t

/-- 10_state.md R39: the six invariants hold in every state reachable from reset. -/
def Obligations.ReachableStatesMeetTheStateRules : Prop :=
  ∀ s : State, Reachable s → StateRules s

/-- 41_stream_ports.md R143: a PUSH leaves at most 4 bytes in OBUF, and leaves bytes there only with the group closed. -/
def Obligations.OutputBufferNeverOverflows : Prop :=
  ∀ (s t : State) (b : Byte), Invariant s → s.inReady = true → exec (.push b) s = .next t →
    t.obuf.length ≤ 4 ∧ (t.obuf ≠ [] → t.acc = 0#24 ∧ t.cnt = 0)

/-- 41_stream_ports.md R144: a running operation can always go on. -/
def Obligations.ARunningOperationCanProgress : Prop :=
  ∀ s : State, Reachable s → s.busy = true → s.inReady = true ∨ s.outValid = true

/-- 10_state.md R34, 40_host_interface.md R116: the only transactions that move the FSM. R34's third way, reset, is no transaction:
StepsMoveTheOperationOnlyByEventsOrReset says it of whole steps. -/
def Obligations.OnlyStartAndCompletionMoveTheFsm : Prop :=
  ∀ (i : Instr) (s t : State), exec i s = .next t →
    (s.busy = false → t.busy = true → ∃ ie ign, i = .enc ie ign ∨ i = .dec ie ign) ∧
    (s.busy = true → t.busy = false →
      (i = .pull ∨ ∃ b, i = .push b) ∧ t.inCount = t.inLen ∧ t.obuf = [] ∧ t.done = true ∧
        t.noout = (decide (t.inLen ≠ 0#32) && !t.anyout))

/-- 10_state.md R24, R25, R26, R21, 40_host_interface.md R101, R108: which transactions can change IN_LEN, IN_COUNT, OUT_COUNT and MODE: a
running operation's counters only a PUSH and a PULL, an idle block's only a START, which leaves both 0; MODE only while IDLE, by a CFG or a
START. Reset, which clears them, is no transaction: StepsMoveTheOperationOnlyByEventsOrReset says it of whole steps. -/
def Obligations.CountersChangeOnlyByTheirEvents : Prop :=
  ∀ (i : Instr) (s t : State), exec i s = .next t →
    (t.inLen ≠ s.inLen → s.busy = false ∧ i = .wrInLen t.inLen) ∧
    (s.busy = true → t.inCount ≠ s.inCount → t.inCount = s.inCount + 1#32 ∧ ∃ b, i = .push b) ∧
    (s.busy = true → t.outCount ≠ s.outCount → t.outCount = s.outCount + 1#32 ∧ i = .pull) ∧
    (Invariant s → s.busy = false → t.inCount ≠ s.inCount ∨ t.outCount ≠ s.outCount →
      t.inCount = 0#32 ∧ t.outCount = 0#32 ∧ ∃ ie ign, i = .enc ie ign ∨ i = .dec ie ign) ∧
    (t.mode ≠ s.mode → s.busy = false ∧
      ∃ ie ign, i = .cfg t.mode ie ign ∨ (i = .enc ie ign ∧ t.mode = .encode) ∨ (i = .dec ie ign ∧ t.mode = .decode))

/-- 60_exceptions.md R202: no transaction sets CMDERR but a command that a running operation turns away, and none clears it but WR_STATUS.
Reset, which clears it too, is no transaction: StepsMoveTheOperationOnlyByEventsOrReset says it of whole steps. -/
def Obligations.CmderrIsStickyAndOnlyForBusyCommands : Prop :=
  ∀ (i : Instr) (s t : State), exec i s = .next t →
    (s.cmderr = false → t.cmderr = true →
      s.busy = true ∧ ((∃ ie ign, i = .enc ie ign ∨ i = .dec ie ign) ∨ ∃ d, i = .wrInLen d)) ∧
    (s.cmderr = true → t.cmderr = false → ∃ d : Word, i = .wrStatus d ∧ d.getLsbD 8 = true)

/-- 00_scope.md R8, 10_state.md R34, R24 to R26, R21, 60_exceptions.md R202: of whole steps, on a word, on a cycle of pins or with nothing
driven. With nothing driven the block does not change (log entry 3). A step that is no reset cycle makes the block BUSY only by an ENC or a
DEC, and IDLE only by the PUSH or the PULL that completes; a running operation's IN_COUNT grows only by a PUSH and its OUT_COUNT only by a
PULL; an idle block's counters change only by a START, which leaves both 0; IN_LEN changes only by a WR_IN_LEN and MODE only by a CFG or a
START, each while IDLE; CMDERR is set and cleared only as R202 says. Reset is the one exception. -/
def Obligations.StepsMoveTheOperationOnlyByEventsOrReset : Prop :=
  (∀ s : State, s.inputs = [] → step s = .next s.openStep) ∧
  ∀ s t : State, step s = .next t → DrivesReset s ∨
    ((s.busy = false → t.busy = true → ∃ ie ign, Drives s (.enc ie ign) ∨ Drives s (.dec ie ign)) ∧
      (s.busy = true → t.busy = false →
        ((s.inReady = true ∧ OffersByte s) ∨ (s.outValid = true ∧ AcceptsByte s)) ∧
        t.inCount = t.inLen ∧ t.obuf = [] ∧ t.done = true ∧ t.noout = (decide (t.inLen ≠ 0#32) && !t.anyout)) ∧
      (s.busy = true → t.inCount ≠ s.inCount → t.inCount = s.inCount + 1#32 ∧ s.inReady = true ∧ OffersByte s) ∧
      (s.busy = true → t.outCount ≠ s.outCount → t.outCount = s.outCount + 1#32 ∧ s.outValid = true ∧ AcceptsByte s) ∧
      (Invariant s → s.busy = false → t.inCount ≠ s.inCount ∨ t.outCount ≠ s.outCount →
        t.inCount = 0#32 ∧ t.outCount = 0#32 ∧ ∃ ie ign, Drives s (.enc ie ign) ∨ Drives s (.dec ie ign)) ∧
      (t.inLen ≠ s.inLen → s.busy = false ∧ ∃ d, Drives s (.wrInLen d) ∧ t.inLen = d) ∧
      (t.mode ≠ s.mode → s.busy = false ∧
        ∃ ie ign, Drives s (.cfg t.mode ie ign) ∨ (Drives s (.enc ie ign) ∧ t.mode = .encode) ∨
          (Drives s (.dec ie ign) ∧ t.mode = .decode)) ∧
      (s.cmderr = false → t.cmderr = true →
        s.busy = true ∧ ∃ i, Drives s i ∧ ((∃ ie ign, i = .enc ie ign ∨ i = .dec ie ign) ∨ ∃ d, i = .wrInLen d)) ∧
      (s.cmderr = true → t.cmderr = false → ∃ d : Word, Drives s (.wrStatus d) ∧ d.getLsbD 8 = true))

/-- 41_stream_ports.md R141, 42_encode.md R160: NOOUT is set only by a PUSH that completes a Decode of a non-empty input that delivered no
byte. -/
def Obligations.NooutOnlyAfterAnEmptyDecode : Prop :=
  ∀ (i : Instr) (s t : State), Invariant s → exec i s = .next t → s.noout = false → t.noout = true →
    s.mode = .decode ∧ s.busy = true ∧ t.busy = false ∧ t.inLen ≠ 0#32 ∧ t.anyout = false ∧ ∃ b, i = .push b

/-- 10_state.md R29, 60_exceptions.md R203: irq is CTRL.IE AND STATUS.DONE after every event; it rises only by completion with IE set or by
a CFG that sets IE while DONE = 1. -/
def Obligations.IrqRisesOnlyByCompletionOrEnable : Prop :=
  ∀ (i : Instr) (s t : State), Invariant s → exec i s = .next t →
    (t.irq = true ↔ t.ie = true ∧ t.done = true) ∧
    (s.irq = false → t.irq = true →
      (t.busy = false ∧ t.inCount = t.inLen ∧ t.obuf = [] ∧
        ((∃ b, i = .push b) ∨ i = .pull ∨ ∃ ign, i = .enc true ign ∨ i = .dec true ign)) ∨
      (s.done = true ∧ ∃ m ign, i = .cfg m true ign))

/-- 41_stream_ports.md R131, R134: in_ready and out_valid are these functions of the state; while out_valid = 1, out_data is OBUF's head and
stays so until the PULL that takes it. -/
def Obligations.HandshakePortsFollowTheState : Prop :=
  ∀ s : State,
    (s.inReady = true ↔ s.busy = true ∧ s.inCount ≠ s.inLen ∧ s.obuf.length = 0) ∧
    (s.outValid = true ↔ 0 < s.obuf.length) ∧
    (∀ (i : Instr) (t : State), s.outValid = true → i ≠ .pull → exec i s = .next t →
      t.outValid = true ∧ t.outData = s.outData ∧ s.obuf.head? = some t.outData)

/-! ## Whole operations (70_reset_and_hazards.md R224) -/

/-- 41_stream_ports.md R136, 42_encode.md R151 to R157: an Encode delivers exactly the source's Encode of its input and completes. The
operation is the model's sequence, log entry 16: SETLEN, START and the transfers, no register access between them; encodeText is the
model's second writing of 42_encode.md. -/
def Obligations.EncodeOperationDeliversTheText : Prop :=
  ∀ (s : State) (ie : Bool) (ign : BitVec 29) (input : List Byte), s.busy = false → Invariant s → input.length < 2 ^ 32 →
    ∃ t, operate (.enc ie ign) input s = .next (encodeText input, t) ∧ t.busy = false ∧ t.done = true ∧ t.noout = false ∧
      t.inv = false ∧ t.tail = false ∧ t.lone = false ∧ t.inCount = BitVec.ofNat 32 input.length ∧
      t.outCount = BitVec.ofNat 32 (encodeText input).length ∧ t.ie = ie ∧ t.cmderr = s.cmderr

/-- 41_stream_ports.md R136, R140, R141, 43_decode.md R170 to R179: a Decode delivers exactly the source's Decode of its input, completes
and reports INV, TAIL, LONE and NOOUT. The operation is the model's sequence, log entry 16: SETLEN, START and the transfers, no register
access between them; decodeText and flagsFrom are the model's second writing of 43_decode.md. -/
def Obligations.DecodeOperationDeliversTheBytes : Prop :=
  ∀ (s : State) (ie : Bool) (ign : BitVec 29) (text : List Byte), s.busy = false → Invariant s → text.length < 2 ^ 32 →
    ∃ t, operate (.dec ie ign) text s = .next (decodeText text, t) ∧ t.busy = false ∧ t.done = true ∧
      t.noout = decide (text ≠ [] ∧ decodeText text = []) ∧ (⟨t.inv, t.tail, t.lone⟩ : DecodeFlags) = flagsFrom [] text ∧
      t.inCount = BitVec.ofNat 32 text.length ∧
      t.outCount = BitVec.ofNat 32 (decodeText text).length ∧ t.ie = ie ∧ t.cmderr = s.cmderr

/-- 42_encode.md R158, R159, R160: the length, the padding and the alphabet of an Encode's output.
Said of encodeText, the model's second writing of those rules, log entry 16; the whole-operation statements tie it to the machine. -/
def Obligations.EncodeLengthAndPadding : Prop :=
  ∀ input : List Byte,
    (encodeText input).length = 4 * ((input.length + 2) / 3) ∧
    (input.length % 3 = 1 → ∃ body x y, encodeText input = body ++ [elut x, elut y, padChar, padChar] ∧ padChar ∉ body) ∧
    (input.length % 3 = 2 → ∃ body x, encodeText input = body ++ [elut x, padChar] ∧ padChar ∉ body) ∧
    (input.length % 3 = 0 → padChar ∉ encodeText input) ∧
    ∀ c ∈ encodeText input, c = padChar ∨ ∃ v, c = elut v

/-- 43_decode.md R184: a Decode of the output of an Encode of B delivers B, with INV = TAIL = LONE = 0. Each of the two operations is the
model's sequence, log entry 16: SETLEN, START and the transfers, no register access between them. -/
def Obligations.DecodeOfEncodeDeliversTheInput : Prop :=
  ∀ (s : State) (ie : Bool) (ign : BitVec 29) (input : List Byte), s.busy = false → Invariant s →
    4 * ((input.length + 2) / 3) < 2 ^ 32 →
    ∃ text t u, operate (.enc ie ign) input s = .next (text, t) ∧ operate (.dec ie ign) text t = .next (input, u) ∧
      u.busy = false ∧ u.done = true ∧ u.noout = false ∧ u.inv = false ∧ u.tail = false ∧ u.lone = false

/-- 43_decode.md R183: removing any bytes that are all INVALID, whitespace among them, changes no decoded byte.
Said of decodeText, the model's second writing of those rules, log entry 16; the whole-operation statements tie it to the machine. -/
def Obligations.SkippedBytesDoNotChangeTheOutput : Prop :=
  ∀ (text : List Byte) (drop : Byte → Bool), (∀ b, drop b = true → dlut b = .invalid) →
    decodeText (text.filter fun b => !drop b) = decodeText text

/-- 43_decode.md R186: a Decode delivers at most floor(3m/4) bytes for m VALUE bytes.
Said of decodeText, the model's second writing of those rules, log entry 16; the whole-operation statements tie it to the machine. -/
def Obligations.DecodeLengthBound : Prop :=
  ∀ text : List Byte,
    (decodeText text).length ≤ 3 * valueCount text / 4 ∧ (decodeText text).length ≤ 3 * text.length / 4
end

