-- ==== Sys2Proof/Laws/Bits.lean ====
section
/-! SUPPORT. The bit packing of the accumulator: what inserting a byte or a value into an open group gives, and what the slices of a
group are (10_state.md R30, 20_memory.md R57, 43_decode.md R180). -/

namespace Sys2Proof.Machine

/-! ## Slices of a group of bytes -/

theorem slice0_group (a b c : Byte) : sliceAt (a ++ b ++ c) 0 = a.extractLsb' 2 6 := by
  unfold sliceAt
  apply BitVec.eq_of_getLsbD_eq
  intro j hj
  simp only [BitVec.getLsbD_append, BitVec.getLsbD_extractLsb']
  interval_cases j <;> simp

theorem slice1_group (a b c : Byte) : sliceAt (a ++ b ++ c) 1 = a.extractLsb' 0 2 ++ b.extractLsb' 4 4 := by
  unfold sliceAt
  apply BitVec.eq_of_getLsbD_eq
  intro j hj
  simp only [BitVec.getLsbD_append, BitVec.getLsbD_extractLsb']
  interval_cases j <;> simp

theorem slice2_group (a b c : Byte) : sliceAt (a ++ b ++ c) 2 = b.extractLsb' 0 4 ++ c.extractLsb' 6 2 := by
  unfold sliceAt
  apply BitVec.eq_of_getLsbD_eq
  intro j hj
  simp only [BitVec.getLsbD_append, BitVec.getLsbD_extractLsb']
  interval_cases j <;> simp

theorem slice3_group (a b c : Byte) : sliceAt (a ++ b ++ c) 3 = c.extractLsb' 0 6 := by
  unfold sliceAt
  apply BitVec.eq_of_getLsbD_eq
  intro j hj
  simp only [BitVec.getLsbD_append, BitVec.getLsbD_extractLsb']
  interval_cases j <;> simp

/-! ## Bytes of a quad of values -/

theorem byte0_quad (v0 v1 v2 v3 : Sextet) : byteAt (v0 ++ v1 ++ v2 ++ v3) 0 = v0 ++ v1.extractLsb' 4 2 := by
  unfold byteAt
  apply BitVec.eq_of_getLsbD_eq
  intro j hj
  simp only [BitVec.getLsbD_append, BitVec.getLsbD_extractLsb']
  interval_cases j <;> simp

theorem byte1_quad (v0 v1 v2 v3 : Sextet) :
    byteAt (v0 ++ v1 ++ v2 ++ v3) 1 = v1.extractLsb' 0 4 ++ v2.extractLsb' 2 4 := by
  unfold byteAt
  apply BitVec.eq_of_getLsbD_eq
  intro j hj
  simp only [BitVec.getLsbD_append, BitVec.getLsbD_extractLsb']
  interval_cases j <;> simp

theorem byte2_quad (v0 v1 v2 v3 : Sextet) : byteAt (v0 ++ v1 ++ v2 ++ v3) 2 = v2.extractLsb' 0 2 ++ v3 := by
  unfold byteAt
  apply BitVec.eq_of_getLsbD_eq
  intro j hj
  simp only [BitVec.getLsbD_append, BitVec.getLsbD_extractLsb']
  interval_cases j <;> simp

/-! ## Filling an open group -/

theorem insertByte_first (b : Byte) : insertByte 0#24 0 b = b ++ 0#8 ++ 0#8 := by
  unfold insertByte
  apply BitVec.eq_of_getLsbD_eq
  intro j hj
  simp only [BitVec.getLsbD_append, BitVec.getLsbD_extractLsb']
  interval_cases j <;> simp

theorem insertByte_second (a b : Byte) : insertByte (a ++ 0#8 ++ 0#8) 1 b = a ++ b ++ 0#8 := by
  unfold insertByte
  apply BitVec.eq_of_getLsbD_eq
  intro j hj
  simp only [BitVec.getLsbD_append, BitVec.getLsbD_extractLsb']
  interval_cases j <;> simp

theorem insertByte_third (a b c : Byte) : insertByte (a ++ b ++ 0#8) 2 c = a ++ b ++ c := by
  unfold insertByte
  apply BitVec.eq_of_getLsbD_eq
  intro j hj
  simp only [BitVec.getLsbD_append, BitVec.getLsbD_extractLsb']
  interval_cases j <;> simp

theorem insertValue_first (v : Sextet) : insertValue 0#24 0 v = v ++ 0#6 ++ 0#6 ++ 0#6 := by
  unfold insertValue
  apply BitVec.eq_of_getLsbD_eq
  intro j hj
  simp only [BitVec.getLsbD_append, BitVec.getLsbD_extractLsb']
  interval_cases j <;> simp

theorem insertValue_second (v0 v : Sextet) : insertValue (v0 ++ 0#6 ++ 0#6 ++ 0#6) 1 v = v0 ++ v ++ 0#6 ++ 0#6 := by
  unfold insertValue
  apply BitVec.eq_of_getLsbD_eq
  intro j hj
  simp only [BitVec.getLsbD_append, BitVec.getLsbD_extractLsb']
  interval_cases j <;> simp

theorem insertValue_third (v0 v1 v : Sextet) :
    insertValue (v0 ++ v1 ++ 0#6 ++ 0#6) 2 v = v0 ++ v1 ++ v ++ 0#6 := by
  unfold insertValue
  apply BitVec.eq_of_getLsbD_eq
  intro j hj
  simp only [BitVec.getLsbD_append, BitVec.getLsbD_extractLsb']
  interval_cases j <;> simp

theorem insertValue_fourth (v0 v1 v2 v : Sextet) :
    insertValue (v0 ++ v1 ++ v2 ++ 0#6) 3 v = v0 ++ v1 ++ v2 ++ v := by
  unfold insertValue
  apply BitVec.eq_of_getLsbD_eq
  intro j hj
  simp only [BitVec.getLsbD_append, BitVec.getLsbD_extractLsb']
  interval_cases j <;> simp

/-! ## The open group as the list of what it holds -/

/-- One more byte in an open group (42_encode.md R151). -/
theorem insertByte_groupOf (bs : List Byte) (k : Fin 4) (b : Byte) (hk : k.val = bs.length) (h2 : bs.length ≤ 2) :
    insertByte (groupOf bs) k b = groupOf (bs ++ [b]) := by
  match bs, k, hk, h2 with
  | [], ⟨0, _⟩, _, _ => simpa [groupOf] using insertByte_first b
  | [a], ⟨1, _⟩, _, _ => simpa [groupOf] using insertByte_second a b
  | [a, c], ⟨2, _⟩, _, _ => simpa [groupOf] using insertByte_third a c b

/-- One more value in an open quad (43_decode.md R172). -/
theorem insertValue_quadOf (vs : List Sextet) (k : Fin 4) (v : Sextet) (hk : k.val = vs.length) :
    insertValue (quadOf vs) k v = quadOf (vs ++ [v]) := by
  match vs, k, hk with
  | [], ⟨0, _⟩, _ => simpa [quadOf] using insertValue_first v
  | [a], ⟨1, _⟩, _ => simpa [quadOf] using insertValue_second a v
  | [a, c], ⟨2, _⟩, _ => simpa [quadOf] using insertValue_third a c v
  | [a, c, d], ⟨3, _⟩, _ => simpa [quadOf] using insertValue_fourth a c d v

/-- The characters of a full group are the source's (42_encode.md R152). -/
theorem emitQuad_groupOf (a b c : Byte) : emitQuad (groupOf [a, b, c]) = encodeText [a, b, c] := by
  simp [emitQuad, charAt, groupOf, slice0_group, slice1_group, slice2_group, slice3_group, encodeText, firstChar,
    secondChar, thirdChar, fourthChar]

/-- The bytes CloseQuad emits are the source's (43_decode.md R176, R180). -/
theorem closedBytes_quadOf (vs : List Sextet) (k : Fin 4) (hk : k.val = vs.length) :
    closedBytes (quadOf vs) k = quadBytes vs := by
  match vs, k, hk with
  | [], ⟨0, _⟩, _ => simp [closedBytes, quadBytes]
  | [_], ⟨1, _⟩, _ => simp [closedBytes, quadBytes]
  | [a, c], ⟨2, _⟩, _ => simp [closedBytes, quadBytes, quadOf, byte0_quad]
  | [a, c, d], ⟨3, _⟩, _ => simp [closedBytes, quadBytes, quadOf, byte0_quad, byte1_quad]

/-- The three bytes of a full quad are the source's (43_decode.md R173, R180). -/
theorem fullQuad_bytes (v0 v1 v2 v3 : Sextet) :
    [byteAt (quadOf [v0, v1, v2, v3]) 0, byteAt (quadOf [v0, v1, v2, v3]) 1, byteAt (quadOf [v0, v1, v2, v3]) 2] =
      quadBytes [v0, v1, v2, v3] := by
  simp [quadBytes, quadOf, byte0_quad, byte1_quad, byte2_quad]

end Sys2Proof.Machine
end

