-- ==== Sys2Proof/Laws/Decode.lean ====
section
/-! SUPPORT. The fields of a word put together and taken apart (30_encoding.md R70, R75), and what decoding such a word gives (R73). -/

namespace Sys2Proof

/-! ## makeHtw and the four fields -/

/-- A word with any Z, taken apart: its kind. -/
theorem Htw.kind_append (k : BitVec 2) (a z : BitVec 3) (d : Word) : Htw.kind (k ++ a ++ z ++ d) = k := by
  unfold Htw.kind
  rw [BitVec.extractLsb'_append_eq_of_le (by decide), BitVec.extractLsb'_append_eq_of_le (by decide),
    BitVec.extractLsb'_append_eq_of_le (by decide)]
  exact BitVec.extractLsb'_eq_self

theorem Htw.index_append (k : BitVec 2) (a z : BitVec 3) (d : Word) : Htw.index (k ++ a ++ z ++ d) = a := by
  unfold Htw.index
  rw [BitVec.extractLsb'_append_eq_of_le (by decide), BitVec.extractLsb'_append_eq_of_le (by decide),
    BitVec.extractLsb'_append_eq_of_add_le (by decide)]
  exact BitVec.extractLsb'_eq_self

theorem Htw.zbits_append (k : BitVec 2) (a z : BitVec 3) (d : Word) : Htw.zbits (k ++ a ++ z ++ d) = z := by
  unfold Htw.zbits
  rw [BitVec.extractLsb'_append_eq_of_le (by decide), BitVec.extractLsb'_append_eq_of_add_le (by decide)]
  exact BitVec.extractLsb'_eq_self

theorem Htw.data_append (k : BitVec 2) (a z : BitVec 3) (d : Word) : Htw.data (k ++ a ++ z ++ d) = d := by
  unfold Htw.data
  rw [BitVec.extractLsb'_append_eq_of_add_le (by decide)]
  exact BitVec.extractLsb'_eq_self

@[simp] theorem makeHtw_kind (k : BitVec 2) (a : BitVec 3) (d : Word) : (makeHtw k a d).kind = k := Htw.kind_append k a 0#3 d
@[simp] theorem makeHtw_index (k : BitVec 2) (a : BitVec 3) (d : Word) : (makeHtw k a d).index = a := Htw.index_append k a 0#3 d
@[simp] theorem makeHtw_zbits (k : BitVec 2) (a : BitVec 3) (d : Word) : (makeHtw k a d).zbits = 0#3 := Htw.zbits_append k a 0#3 d
@[simp] theorem makeHtw_data (k : BitVec 2) (a : BitVec 3) (d : Word) : (makeHtw k a d).data = d := Htw.data_append k a 0#3 d

/-- Every word is its four fields. -/
theorem Htw.eq_fields (w : Htw) : w = w.kind ++ w.index ++ w.zbits ++ w.data := by
  unfold Htw.kind Htw.index Htw.zbits Htw.data
  rw [BitVec.extractLsb'_append_extractLsb'_eq_extractLsb' (by decide),
    BitVec.extractLsb'_append_extractLsb'_eq_extractLsb' (by decide),
    BitVec.extractLsb'_append_extractLsb'_eq_extractLsb' (by decide)]
  exact BitVec.extractLsb'_eq_self.symm

/-- A word with Z = 0 is made from its fields. -/
theorem makeHtw_fields (w : Htw) (h : w.zbits = 0#3) : makeHtw w.kind w.index w.data = w := by
  have e := w.eq_fields
  rw [h] at e
  exact e.symm

/-! ## The CTRL command word -/

theorem ctrlData_start (start : Bool) (m : Mode) (ie : Bool) (ign : BitVec 29) :
    (ctrlData start m ie ign).getLsbD 0 = start := by
  simp only [ctrlData, BitVec.getLsbD_append]
  simp

theorem ctrlData_mode (start : Bool) (m : Mode) (ie : Bool) (ign : BitVec 29) :
    (ctrlData start m ie ign).getLsbD 1 = m.bit := by
  simp only [ctrlData, BitVec.getLsbD_append]
  simp

theorem ctrlData_ie (start : Bool) (m : Mode) (ie : Bool) (ign : BitVec 29) :
    (ctrlData start m ie ign).getLsbD 2 = ie := by
  simp only [ctrlData, BitVec.getLsbD_append]
  simp

theorem ctrlData_ignored (start : Bool) (m : Mode) (ie : Bool) (ign : BitVec 29) :
    (ctrlData start m ie ign).extractLsb' 3 29 = ign := by
  unfold ctrlData
  rw [BitVec.extractLsb'_append_eq_of_le (by decide), BitVec.extractLsb'_append_eq_of_le (by decide),
    BitVec.extractLsb'_append_eq_of_le (by decide)]
  exact BitVec.extractLsb'_eq_self

@[simp] theorem Mode.ofBit_bit (m : Mode) : Mode.ofBit m.bit = m := by cases m <;> rfl

@[simp] theorem Mode.bit_ofBit (b : Bool) : (Mode.ofBit b).bit = b := by cases b <;> rfl

/-- Every 32-bit value is a CTRL command word of its own fields. -/
theorem ctrlData_fields (d : Word) :
    ctrlData (d.getLsbD 0) (Mode.ofBit (d.getLsbD 1)) (d.getLsbD 2) (d.extractLsb' 3 29) = d := by
  unfold ctrlData
  apply BitVec.eq_of_getLsbD_eq
  intro j hj
  simp only [BitVec.getLsbD_append, BitVec.getLsbD_extractLsb', Mode.bit_ofBit, BitVec.getLsbD_ofBool]
  rcases j with _ | _ | _ | j
  · simp
  · simp
  · simp
  · have h : j < 29 := by omega
    simp [h, show 3 + j = j + 3 by omega]

/-! ## What decoding gives, kind by kind -/

/-- A word with Z ≠ 0 is reserved. -/
theorem decode_zNonZero {w : Htw} (h : w.zbits ≠ 0#3) : decode w = .error .zNonZero := by
  simp [decode, h]

/-- A register read. -/
theorem decode_read (a : BitVec 3) : decode (makeHtw 0b00#2 a 0#32) = .ok (readInstr a) := by
  simp [decode]

/-- A register write. -/
theorem decode_write (a : BitVec 3) (d : Word) : decode (makeHtw 0b01#2 a d) = .ok (writeInstr a d) := by
  simp [decode]

/-- The low byte of a widened byte. -/
theorem low_byte_of_widened (b : Byte) : (b.setWidth 32).extractLsb' 0 8 = b := by
  apply BitVec.eq_of_getLsbD_eq
  intro j hj
  simp only [BitVec.getLsbD_extractLsb', BitVec.getLsbD_setWidth]
  simp [hj]
  omega

/-- The high bits of a widened byte are 0. -/
theorem high_bits_of_widened (b : Byte) : (b.setWidth 32).extractLsb' 8 24 = 0#24 := by
  apply BitVec.eq_of_getLsbD_eq
  intro j hj
  simp only [BitVec.getLsbD_extractLsb', BitVec.getLsbD_setWidth]
  simp

/-- A word whose bits 31:8 are 0 is its widened low byte. -/
theorem widened_of_high_zero (d : Word) (h : d.extractLsb' 8 24 = 0#24) : (d.extractLsb' 0 8).setWidth 32 = d := by
  apply BitVec.eq_of_getLsbD_eq
  intro j hj
  simp only [BitVec.getLsbD_setWidth, BitVec.getLsbD_extractLsb']
  by_cases h8 : j < 8
  · simp [h8, hj]
  · have e := congrArg (fun v => v.getLsbD (j - 8)) h
    simp only [BitVec.getLsbD_extractLsb', BitVec.getLsbD_zero] at e
    rw [show 8 + (j - 8) = j by omega] at e
    have hlt : j - 8 < 24 := by omega
    simp [hlt] at e
    simp [h8, e]

/-- A PUSH. -/
theorem decode_push (b : Byte) : decode (makeHtw 0b10#2 0#3 (b.setWidth 32)) = .ok (.push b) := by
  simp [decode, high_bits_of_widened, low_byte_of_widened]

/-- The PULL. -/
theorem decode_pull : decode (makeHtw 0b11#2 0#3 0#32) = .ok .pull := by
  simp [decode]

/-- The row of a read is well-formed. -/
theorem readInstr_wf (a : BitVec 3) : (readInstr a).WellFormed := by
  revert a; decide

/-- The word of the row of a read. -/
theorem encode_readInstr (a : BitVec 3) : encode (readInstr a) = makeHtw 0b00#2 a 0#32 := by
  unfold readInstr
  split_ifs <;> simp_all [encode]

/-- The word of the row of a CTRL write. -/
theorem encode_ctrlInstr (d : Word) : encode (ctrlInstr d) = makeHtw 0b01#2 0#3 d := by
  have e := ctrlData_fields d
  unfold ctrlInstr
  cases h0 : d.getLsbD 0 <;> cases h1 : d.getLsbD 1 <;> simp only [h0, h1] at e <;>
    simp [encode] <;> simpa [Mode.ofBit] using congrArg _ e

/-- The word of the row of a write. -/
theorem encode_writeInstr (a : BitVec 3) (d : Word) : encode (writeInstr a d) = makeHtw 0b01#2 a d := by
  unfold writeInstr
  split_ifs with h
  · subst h
    exact encode_ctrlInstr d
  all_goals simp_all [encode]

/-- The row of a write is well-formed. -/
theorem writeInstr_wf (a : BitVec 3) (d : Word) : (writeInstr a d).WellFormed := by
  unfold writeInstr ctrlInstr
  split_ifs <;> simp_all [Instr.WellFormed, Instr.wf, isReservedIndex]
  · revert a; decide

end Sys2Proof
end

