-- ==== Sys2Proof/Laws/State.lean ====
section
/-! SUPPORT. One lemma per field per named update of State, each true by rfl, so that no proof unfolds a record update. -/

namespace Sys2Proof.Machine

/-! ## State.respond: a read's response -/

@[simp] theorem State.respond_mode (s : State) (v : Word) : (s.respond v).mode = s.mode := rfl
@[simp] theorem State.respond_ie (s : State) (v : Word) : (s.respond v).ie = s.ie := rfl
@[simp] theorem State.respond_busy (s : State) (v : Word) : (s.respond v).busy = s.busy := rfl
@[simp] theorem State.respond_done (s : State) (v : Word) : (s.respond v).done = s.done := rfl
@[simp] theorem State.respond_noout (s : State) (v : Word) : (s.respond v).noout = s.noout := rfl
@[simp] theorem State.respond_inv (s : State) (v : Word) : (s.respond v).inv = s.inv := rfl
@[simp] theorem State.respond_tail (s : State) (v : Word) : (s.respond v).tail = s.tail := rfl
@[simp] theorem State.respond_lone (s : State) (v : Word) : (s.respond v).lone = s.lone := rfl
@[simp] theorem State.respond_cmderr (s : State) (v : Word) : (s.respond v).cmderr = s.cmderr := rfl
@[simp] theorem State.respond_inLen (s : State) (v : Word) : (s.respond v).inLen = s.inLen := rfl
@[simp] theorem State.respond_inCount (s : State) (v : Word) : (s.respond v).inCount = s.inCount := rfl
@[simp] theorem State.respond_outCount (s : State) (v : Word) : (s.respond v).outCount = s.outCount := rfl
@[simp] theorem State.respond_acc (s : State) (v : Word) : (s.respond v).acc = s.acc := rfl
@[simp] theorem State.respond_cnt (s : State) (v : Word) : (s.respond v).cnt = s.cnt := rfl
@[simp] theorem State.respond_term (s : State) (v : Word) : (s.respond v).term = s.term := rfl
@[simp] theorem State.respond_anyout (s : State) (v : Word) : (s.respond v).anyout = s.anyout := rfl
@[simp] theorem State.respond_obuf (s : State) (v : Word) : (s.respond v).obuf = s.obuf := rfl
@[simp] theorem State.respond_inputs (s : State) (v : Word) : (s.respond v).inputs = s.inputs := rfl
@[simp] theorem State.respond_regResp (s : State) (v : Word) : (s.respond v).regResp = some v := rfl
@[simp] theorem State.respond_outResp (s : State) (v : Word) : (s.respond v).outResp = s.outResp := rfl
@[simp] theorem State.respond_tick (s : State) (v : Word) : (s.respond v).tick = s.tick := rfl

/-! ## State.openStep: a step begins -/

@[simp] theorem State.openStep_mode (s : State) : (s.openStep).mode = s.mode := rfl
@[simp] theorem State.openStep_ie (s : State) : (s.openStep).ie = s.ie := rfl
@[simp] theorem State.openStep_busy (s : State) : (s.openStep).busy = s.busy := rfl
@[simp] theorem State.openStep_done (s : State) : (s.openStep).done = s.done := rfl
@[simp] theorem State.openStep_noout (s : State) : (s.openStep).noout = s.noout := rfl
@[simp] theorem State.openStep_inv (s : State) : (s.openStep).inv = s.inv := rfl
@[simp] theorem State.openStep_tail (s : State) : (s.openStep).tail = s.tail := rfl
@[simp] theorem State.openStep_lone (s : State) : (s.openStep).lone = s.lone := rfl
@[simp] theorem State.openStep_cmderr (s : State) : (s.openStep).cmderr = s.cmderr := rfl
@[simp] theorem State.openStep_inLen (s : State) : (s.openStep).inLen = s.inLen := rfl
@[simp] theorem State.openStep_inCount (s : State) : (s.openStep).inCount = s.inCount := rfl
@[simp] theorem State.openStep_outCount (s : State) : (s.openStep).outCount = s.outCount := rfl
@[simp] theorem State.openStep_acc (s : State) : (s.openStep).acc = s.acc := rfl
@[simp] theorem State.openStep_cnt (s : State) : (s.openStep).cnt = s.cnt := rfl
@[simp] theorem State.openStep_term (s : State) : (s.openStep).term = s.term := rfl
@[simp] theorem State.openStep_anyout (s : State) : (s.openStep).anyout = s.anyout := rfl
@[simp] theorem State.openStep_obuf (s : State) : (s.openStep).obuf = s.obuf := rfl
@[simp] theorem State.openStep_inputs (s : State) : (s.openStep).inputs = s.inputs := rfl
@[simp] theorem State.openStep_regResp (s : State) : (s.openStep).regResp = none := rfl
@[simp] theorem State.openStep_outResp (s : State) : (s.openStep).outResp = none := rfl
@[simp] theorem State.openStep_tick (s : State) : (s.openStep).tick = s.tick + 1 := rfl

/-! ## State.closeWith: a group or quad closes -/

@[simp] theorem State.closeWith_mode (s : State) (out : List Byte) : (s.closeWith out).mode = s.mode := rfl
@[simp] theorem State.closeWith_ie (s : State) (out : List Byte) : (s.closeWith out).ie = s.ie := rfl
@[simp] theorem State.closeWith_busy (s : State) (out : List Byte) : (s.closeWith out).busy = s.busy := rfl
@[simp] theorem State.closeWith_done (s : State) (out : List Byte) : (s.closeWith out).done = s.done := rfl
@[simp] theorem State.closeWith_noout (s : State) (out : List Byte) : (s.closeWith out).noout = s.noout := rfl
@[simp] theorem State.closeWith_inv (s : State) (out : List Byte) : (s.closeWith out).inv = s.inv := rfl
@[simp] theorem State.closeWith_tail (s : State) (out : List Byte) : (s.closeWith out).tail = s.tail := rfl
@[simp] theorem State.closeWith_lone (s : State) (out : List Byte) : (s.closeWith out).lone = s.lone := rfl
@[simp] theorem State.closeWith_cmderr (s : State) (out : List Byte) : (s.closeWith out).cmderr = s.cmderr := rfl
@[simp] theorem State.closeWith_inLen (s : State) (out : List Byte) : (s.closeWith out).inLen = s.inLen := rfl
@[simp] theorem State.closeWith_inCount (s : State) (out : List Byte) : (s.closeWith out).inCount = s.inCount := rfl
@[simp] theorem State.closeWith_outCount (s : State) (out : List Byte) : (s.closeWith out).outCount = s.outCount := rfl
@[simp] theorem State.closeWith_acc (s : State) (out : List Byte) : (s.closeWith out).acc = 0#24 := rfl
@[simp] theorem State.closeWith_cnt (s : State) (out : List Byte) : (s.closeWith out).cnt = 0 := rfl
@[simp] theorem State.closeWith_term (s : State) (out : List Byte) : (s.closeWith out).term = s.term := rfl
@[simp] theorem State.closeWith_anyout (s : State) (out : List Byte) : (s.closeWith out).anyout = s.anyout := rfl
@[simp] theorem State.closeWith_obuf (s : State) (out : List Byte) : (s.closeWith out).obuf = s.obuf ++ out := rfl
@[simp] theorem State.closeWith_inputs (s : State) (out : List Byte) : (s.closeWith out).inputs = s.inputs := rfl
@[simp] theorem State.closeWith_regResp (s : State) (out : List Byte) : (s.closeWith out).regResp = s.regResp := rfl
@[simp] theorem State.closeWith_outResp (s : State) (out : List Byte) : (s.closeWith out).outResp = s.outResp := rfl
@[simp] theorem State.closeWith_tick (s : State) (out : List Byte) : (s.closeWith out).tick = s.tick := rfl

/-! ## State.startOperation: Begin's assignments -/

@[simp] theorem State.startOperation_mode (s : State) (m : Mode) : (s.startOperation m).mode = m := rfl
@[simp] theorem State.startOperation_ie (s : State) (m : Mode) : (s.startOperation m).ie = s.ie := rfl
@[simp] theorem State.startOperation_busy (s : State) (m : Mode) : (s.startOperation m).busy = true := rfl
@[simp] theorem State.startOperation_done (s : State) (m : Mode) : (s.startOperation m).done = false := rfl
@[simp] theorem State.startOperation_noout (s : State) (m : Mode) : (s.startOperation m).noout = false := rfl
@[simp] theorem State.startOperation_inv (s : State) (m : Mode) : (s.startOperation m).inv = false := rfl
@[simp] theorem State.startOperation_tail (s : State) (m : Mode) : (s.startOperation m).tail = false := rfl
@[simp] theorem State.startOperation_lone (s : State) (m : Mode) : (s.startOperation m).lone = false := rfl
@[simp] theorem State.startOperation_cmderr (s : State) (m : Mode) : (s.startOperation m).cmderr = s.cmderr := rfl
@[simp] theorem State.startOperation_inLen (s : State) (m : Mode) : (s.startOperation m).inLen = s.inLen := rfl
@[simp] theorem State.startOperation_inCount (s : State) (m : Mode) : (s.startOperation m).inCount = 0#32 := rfl
@[simp] theorem State.startOperation_outCount (s : State) (m : Mode) : (s.startOperation m).outCount = 0#32 := rfl
@[simp] theorem State.startOperation_acc (s : State) (m : Mode) : (s.startOperation m).acc = 0#24 := rfl
@[simp] theorem State.startOperation_cnt (s : State) (m : Mode) : (s.startOperation m).cnt = 0 := rfl
@[simp] theorem State.startOperation_term (s : State) (m : Mode) : (s.startOperation m).term = false := rfl
@[simp] theorem State.startOperation_anyout (s : State) (m : Mode) : (s.startOperation m).anyout = false := rfl
@[simp] theorem State.startOperation_obuf (s : State) (m : Mode) : (s.startOperation m).obuf = s.obuf := rfl
@[simp] theorem State.startOperation_inputs (s : State) (m : Mode) : (s.startOperation m).inputs = s.inputs := rfl
@[simp] theorem State.startOperation_regResp (s : State) (m : Mode) : (s.startOperation m).regResp = s.regResp := rfl
@[simp] theorem State.startOperation_outResp (s : State) (m : Mode) : (s.startOperation m).outResp = s.outResp := rfl
@[simp] theorem State.startOperation_tick (s : State) (m : Mode) : (s.startOperation m).tick = s.tick := rfl

/-! ## startWhileBusy -/

@[simp] theorem startWhileBusy_mode (s : State) (e : Bool) : (startWhileBusy e s).mode = s.mode := rfl
@[simp] theorem startWhileBusy_ie (s : State) (e : Bool) : (startWhileBusy e s).ie = e := rfl
@[simp] theorem startWhileBusy_busy (s : State) (e : Bool) : (startWhileBusy e s).busy = s.busy := rfl
@[simp] theorem startWhileBusy_done (s : State) (e : Bool) : (startWhileBusy e s).done = s.done := rfl
@[simp] theorem startWhileBusy_noout (s : State) (e : Bool) : (startWhileBusy e s).noout = s.noout := rfl
@[simp] theorem startWhileBusy_inv (s : State) (e : Bool) : (startWhileBusy e s).inv = s.inv := rfl
@[simp] theorem startWhileBusy_tail (s : State) (e : Bool) : (startWhileBusy e s).tail = s.tail := rfl
@[simp] theorem startWhileBusy_lone (s : State) (e : Bool) : (startWhileBusy e s).lone = s.lone := rfl
@[simp] theorem startWhileBusy_cmderr (s : State) (e : Bool) : (startWhileBusy e s).cmderr = true := rfl
@[simp] theorem startWhileBusy_inLen (s : State) (e : Bool) : (startWhileBusy e s).inLen = s.inLen := rfl
@[simp] theorem startWhileBusy_inCount (s : State) (e : Bool) : (startWhileBusy e s).inCount = s.inCount := rfl
@[simp] theorem startWhileBusy_outCount (s : State) (e : Bool) : (startWhileBusy e s).outCount = s.outCount := rfl
@[simp] theorem startWhileBusy_acc (s : State) (e : Bool) : (startWhileBusy e s).acc = s.acc := rfl
@[simp] theorem startWhileBusy_cnt (s : State) (e : Bool) : (startWhileBusy e s).cnt = s.cnt := rfl
@[simp] theorem startWhileBusy_term (s : State) (e : Bool) : (startWhileBusy e s).term = s.term := rfl
@[simp] theorem startWhileBusy_anyout (s : State) (e : Bool) : (startWhileBusy e s).anyout = s.anyout := rfl
@[simp] theorem startWhileBusy_obuf (s : State) (e : Bool) : (startWhileBusy e s).obuf = s.obuf := rfl
@[simp] theorem startWhileBusy_inputs (s : State) (e : Bool) : (startWhileBusy e s).inputs = s.inputs := rfl
@[simp] theorem startWhileBusy_regResp (s : State) (e : Bool) : (startWhileBusy e s).regResp = s.regResp := rfl
@[simp] theorem startWhileBusy_outResp (s : State) (e : Bool) : (startWhileBusy e s).outResp = s.outResp := rfl
@[simp] theorem startWhileBusy_tick (s : State) (e : Bool) : (startWhileBusy e s).tick = s.tick := rfl

/-! ## afterTerm and decInvalid: skipped bytes -/

@[simp] theorem afterTerm_mode (s : State) (b : Byte) : (afterTerm b s).mode = s.mode := rfl
@[simp] theorem afterTerm_ie (s : State) (b : Byte) : (afterTerm b s).ie = s.ie := rfl
@[simp] theorem afterTerm_busy (s : State) (b : Byte) : (afterTerm b s).busy = s.busy := rfl
@[simp] theorem afterTerm_done (s : State) (b : Byte) : (afterTerm b s).done = s.done := rfl
@[simp] theorem afterTerm_noout (s : State) (b : Byte) : (afterTerm b s).noout = s.noout := rfl
@[simp] theorem afterTerm_inv (s : State) (b : Byte) : (afterTerm b s).inv = s.inv := rfl
@[simp] theorem afterTerm_tail (s : State) (b : Byte) : (afterTerm b s).tail = (s.tail || !isWs b) := rfl
@[simp] theorem afterTerm_lone (s : State) (b : Byte) : (afterTerm b s).lone = s.lone := rfl
@[simp] theorem afterTerm_cmderr (s : State) (b : Byte) : (afterTerm b s).cmderr = s.cmderr := rfl
@[simp] theorem afterTerm_inLen (s : State) (b : Byte) : (afterTerm b s).inLen = s.inLen := rfl
@[simp] theorem afterTerm_inCount (s : State) (b : Byte) : (afterTerm b s).inCount = s.inCount := rfl
@[simp] theorem afterTerm_outCount (s : State) (b : Byte) : (afterTerm b s).outCount = s.outCount := rfl
@[simp] theorem afterTerm_acc (s : State) (b : Byte) : (afterTerm b s).acc = s.acc := rfl
@[simp] theorem afterTerm_cnt (s : State) (b : Byte) : (afterTerm b s).cnt = s.cnt := rfl
@[simp] theorem afterTerm_term (s : State) (b : Byte) : (afterTerm b s).term = s.term := rfl
@[simp] theorem afterTerm_anyout (s : State) (b : Byte) : (afterTerm b s).anyout = s.anyout := rfl
@[simp] theorem afterTerm_obuf (s : State) (b : Byte) : (afterTerm b s).obuf = s.obuf := rfl
@[simp] theorem afterTerm_inputs (s : State) (b : Byte) : (afterTerm b s).inputs = s.inputs := rfl
@[simp] theorem afterTerm_regResp (s : State) (b : Byte) : (afterTerm b s).regResp = s.regResp := rfl
@[simp] theorem afterTerm_outResp (s : State) (b : Byte) : (afterTerm b s).outResp = s.outResp := rfl
@[simp] theorem afterTerm_tick (s : State) (b : Byte) : (afterTerm b s).tick = s.tick := rfl

@[simp] theorem decInvalid_mode (s : State) (b : Byte) : (decInvalid b s).mode = s.mode := rfl
@[simp] theorem decInvalid_ie (s : State) (b : Byte) : (decInvalid b s).ie = s.ie := rfl
@[simp] theorem decInvalid_busy (s : State) (b : Byte) : (decInvalid b s).busy = s.busy := rfl
@[simp] theorem decInvalid_done (s : State) (b : Byte) : (decInvalid b s).done = s.done := rfl
@[simp] theorem decInvalid_noout (s : State) (b : Byte) : (decInvalid b s).noout = s.noout := rfl
@[simp] theorem decInvalid_inv (s : State) (b : Byte) : (decInvalid b s).inv = (s.inv || !isWs b) := rfl
@[simp] theorem decInvalid_tail (s : State) (b : Byte) : (decInvalid b s).tail = s.tail := rfl
@[simp] theorem decInvalid_lone (s : State) (b : Byte) : (decInvalid b s).lone = s.lone := rfl
@[simp] theorem decInvalid_cmderr (s : State) (b : Byte) : (decInvalid b s).cmderr = s.cmderr := rfl
@[simp] theorem decInvalid_inLen (s : State) (b : Byte) : (decInvalid b s).inLen = s.inLen := rfl
@[simp] theorem decInvalid_inCount (s : State) (b : Byte) : (decInvalid b s).inCount = s.inCount := rfl
@[simp] theorem decInvalid_outCount (s : State) (b : Byte) : (decInvalid b s).outCount = s.outCount := rfl
@[simp] theorem decInvalid_acc (s : State) (b : Byte) : (decInvalid b s).acc = s.acc := rfl
@[simp] theorem decInvalid_cnt (s : State) (b : Byte) : (decInvalid b s).cnt = s.cnt := rfl
@[simp] theorem decInvalid_term (s : State) (b : Byte) : (decInvalid b s).term = s.term := rfl
@[simp] theorem decInvalid_anyout (s : State) (b : Byte) : (decInvalid b s).anyout = s.anyout := rfl
@[simp] theorem decInvalid_obuf (s : State) (b : Byte) : (decInvalid b s).obuf = s.obuf := rfl
@[simp] theorem decInvalid_inputs (s : State) (b : Byte) : (decInvalid b s).inputs = s.inputs := rfl
@[simp] theorem decInvalid_regResp (s : State) (b : Byte) : (decInvalid b s).regResp = s.regResp := rfl
@[simp] theorem decInvalid_outResp (s : State) (b : Byte) : (decInvalid b s).outResp = s.outResp := rfl
@[simp] theorem decInvalid_tick (s : State) (b : Byte) : (decInvalid b s).tick = s.tick := rfl

/-! ## closeQuad -/

@[simp] theorem closeQuad_mode (s : State) : (closeQuad s).mode = s.mode := rfl
@[simp] theorem closeQuad_ie (s : State) : (closeQuad s).ie = s.ie := rfl
@[simp] theorem closeQuad_busy (s : State) : (closeQuad s).busy = s.busy := rfl
@[simp] theorem closeQuad_done (s : State) : (closeQuad s).done = s.done := rfl
@[simp] theorem closeQuad_noout (s : State) : (closeQuad s).noout = s.noout := rfl
@[simp] theorem closeQuad_inv (s : State) : (closeQuad s).inv = s.inv := rfl
@[simp] theorem closeQuad_tail (s : State) : (closeQuad s).tail = s.tail := rfl
@[simp] theorem closeQuad_lone (s : State) : (closeQuad s).lone = (s.lone || s.cnt == 1) := rfl
@[simp] theorem closeQuad_cmderr (s : State) : (closeQuad s).cmderr = s.cmderr := rfl
@[simp] theorem closeQuad_inLen (s : State) : (closeQuad s).inLen = s.inLen := rfl
@[simp] theorem closeQuad_inCount (s : State) : (closeQuad s).inCount = s.inCount := rfl
@[simp] theorem closeQuad_outCount (s : State) : (closeQuad s).outCount = s.outCount := rfl
@[simp] theorem closeQuad_acc (s : State) : (closeQuad s).acc = 0#24 := rfl
@[simp] theorem closeQuad_cnt (s : State) : (closeQuad s).cnt = 0 := rfl
@[simp] theorem closeQuad_term (s : State) : (closeQuad s).term = s.term := rfl
@[simp] theorem closeQuad_anyout (s : State) : (closeQuad s).anyout = s.anyout := rfl
@[simp] theorem closeQuad_obuf (s : State) : (closeQuad s).obuf = s.obuf ++ closedBytes s.acc s.cnt := rfl
@[simp] theorem closeQuad_inputs (s : State) : (closeQuad s).inputs = s.inputs := rfl
@[simp] theorem closeQuad_regResp (s : State) : (closeQuad s).regResp = s.regResp := rfl
@[simp] theorem closeQuad_outResp (s : State) : (closeQuad s).outResp = s.outResp := rfl
@[simp] theorem closeQuad_tick (s : State) : (closeQuad s).tick = s.tick := rfl

end Sys2Proof.Machine
end

