-- ==== Sys2Proof/Laws/Ops.lean ====
section
/-! SUPPORT. What each shared operation of the datapath and of an operation's end leaves alone, field by field, and what it does, once. -/

namespace Sys2Proof.Machine

/-! ## checkComplete leaves everything but BUSY, DONE and NOOUT -/

@[simp] theorem checkComplete_mode (s : State) : (checkComplete s).mode = s.mode := by
  unfold checkComplete; split <;> rfl
@[simp] theorem checkComplete_ie (s : State) : (checkComplete s).ie = s.ie := by
  unfold checkComplete; split <;> rfl
@[simp] theorem checkComplete_cmderr (s : State) : (checkComplete s).cmderr = s.cmderr := by
  unfold checkComplete; split <;> rfl
@[simp] theorem checkComplete_inLen (s : State) : (checkComplete s).inLen = s.inLen := by
  unfold checkComplete; split <;> rfl
@[simp] theorem checkComplete_inCount (s : State) : (checkComplete s).inCount = s.inCount := by
  unfold checkComplete; split <;> rfl
@[simp] theorem checkComplete_outCount (s : State) : (checkComplete s).outCount = s.outCount := by
  unfold checkComplete; split <;> rfl
@[simp] theorem checkComplete_anyout (s : State) : (checkComplete s).anyout = s.anyout := by
  unfold checkComplete; split <;> rfl
@[simp] theorem checkComplete_inputs (s : State) : (checkComplete s).inputs = s.inputs := by
  unfold checkComplete; split <;> rfl
@[simp] theorem checkComplete_regResp (s : State) : (checkComplete s).regResp = s.regResp := by
  unfold checkComplete; split <;> rfl
@[simp] theorem checkComplete_outResp (s : State) : (checkComplete s).outResp = s.outResp := by
  unfold checkComplete; split <;> rfl
@[simp] theorem checkComplete_tick (s : State) : (checkComplete s).tick = s.tick := by
  unfold checkComplete; split <;> rfl
@[simp] theorem checkComplete_inv (s : State) : (checkComplete s).inv = s.inv := by
  unfold checkComplete; split <;> rfl
@[simp] theorem checkComplete_tail (s : State) : (checkComplete s).tail = s.tail := by
  unfold checkComplete; split <;> rfl
@[simp] theorem checkComplete_lone (s : State) : (checkComplete s).lone = s.lone := by
  unfold checkComplete; split <;> rfl
@[simp] theorem checkComplete_term (s : State) : (checkComplete s).term = s.term := by
  unfold checkComplete; split <;> rfl
@[simp] theorem checkComplete_acc (s : State) : (checkComplete s).acc = s.acc := by
  unfold checkComplete; split <;> rfl
@[simp] theorem checkComplete_cnt (s : State) : (checkComplete s).cnt = s.cnt := by
  unfold checkComplete; split <;> rfl
@[simp] theorem checkComplete_obuf (s : State) : (checkComplete s).obuf = s.obuf := by
  unfold checkComplete; split <;> rfl

/-! ## encByte leaves everything but ACC, CNT and OBUF (42_encode.md R150) -/

@[simp] theorem encByte_mode (s : State) (b : Byte) : (encByte b s).mode = s.mode := by
  unfold encByte; dsimp only; split <;> rfl
@[simp] theorem encByte_ie (s : State) (b : Byte) : (encByte b s).ie = s.ie := by
  unfold encByte; dsimp only; split <;> rfl
@[simp] theorem encByte_busy (s : State) (b : Byte) : (encByte b s).busy = s.busy := by
  unfold encByte; dsimp only; split <;> rfl
@[simp] theorem encByte_done (s : State) (b : Byte) : (encByte b s).done = s.done := by
  unfold encByte; dsimp only; split <;> rfl
@[simp] theorem encByte_noout (s : State) (b : Byte) : (encByte b s).noout = s.noout := by
  unfold encByte; dsimp only; split <;> rfl
@[simp] theorem encByte_cmderr (s : State) (b : Byte) : (encByte b s).cmderr = s.cmderr := by
  unfold encByte; dsimp only; split <;> rfl
@[simp] theorem encByte_inLen (s : State) (b : Byte) : (encByte b s).inLen = s.inLen := by
  unfold encByte; dsimp only; split <;> rfl
@[simp] theorem encByte_inCount (s : State) (b : Byte) : (encByte b s).inCount = s.inCount := by
  unfold encByte; dsimp only; split <;> rfl
@[simp] theorem encByte_outCount (s : State) (b : Byte) : (encByte b s).outCount = s.outCount := by
  unfold encByte; dsimp only; split <;> rfl
@[simp] theorem encByte_anyout (s : State) (b : Byte) : (encByte b s).anyout = s.anyout := by
  unfold encByte; dsimp only; split <;> rfl
@[simp] theorem encByte_inputs (s : State) (b : Byte) : (encByte b s).inputs = s.inputs := by
  unfold encByte; dsimp only; split <;> rfl
@[simp] theorem encByte_regResp (s : State) (b : Byte) : (encByte b s).regResp = s.regResp := by
  unfold encByte; dsimp only; split <;> rfl
@[simp] theorem encByte_outResp (s : State) (b : Byte) : (encByte b s).outResp = s.outResp := by
  unfold encByte; dsimp only; split <;> rfl
@[simp] theorem encByte_tick (s : State) (b : Byte) : (encByte b s).tick = s.tick := by
  unfold encByte; dsimp only; split <;> rfl
@[simp] theorem encByte_inv (s : State) (b : Byte) : (encByte b s).inv = s.inv := by
  unfold encByte; dsimp only; split <;> rfl
@[simp] theorem encByte_tail (s : State) (b : Byte) : (encByte b s).tail = s.tail := by
  unfold encByte; dsimp only; split <;> rfl
@[simp] theorem encByte_lone (s : State) (b : Byte) : (encByte b s).lone = s.lone := by
  unfold encByte; dsimp only; split <;> rfl
@[simp] theorem encByte_term (s : State) (b : Byte) : (encByte b s).term = s.term := by
  unfold encByte; dsimp only; split <;> rfl

/-! ## encEnd leaves everything but ACC, CNT and OBUF (42_encode.md R150) -/

@[simp] theorem encEnd_mode (s : State) : (encEnd s).mode = s.mode := by
  unfold encEnd; split <;> rfl
@[simp] theorem encEnd_ie (s : State) : (encEnd s).ie = s.ie := by
  unfold encEnd; split <;> rfl
@[simp] theorem encEnd_busy (s : State) : (encEnd s).busy = s.busy := by
  unfold encEnd; split <;> rfl
@[simp] theorem encEnd_done (s : State) : (encEnd s).done = s.done := by
  unfold encEnd; split <;> rfl
@[simp] theorem encEnd_noout (s : State) : (encEnd s).noout = s.noout := by
  unfold encEnd; split <;> rfl
@[simp] theorem encEnd_cmderr (s : State) : (encEnd s).cmderr = s.cmderr := by
  unfold encEnd; split <;> rfl
@[simp] theorem encEnd_inLen (s : State) : (encEnd s).inLen = s.inLen := by
  unfold encEnd; split <;> rfl
@[simp] theorem encEnd_inCount (s : State) : (encEnd s).inCount = s.inCount := by
  unfold encEnd; split <;> rfl
@[simp] theorem encEnd_outCount (s : State) : (encEnd s).outCount = s.outCount := by
  unfold encEnd; split <;> rfl
@[simp] theorem encEnd_anyout (s : State) : (encEnd s).anyout = s.anyout := by
  unfold encEnd; split <;> rfl
@[simp] theorem encEnd_inputs (s : State) : (encEnd s).inputs = s.inputs := by
  unfold encEnd; split <;> rfl
@[simp] theorem encEnd_regResp (s : State) : (encEnd s).regResp = s.regResp := by
  unfold encEnd; split <;> rfl
@[simp] theorem encEnd_outResp (s : State) : (encEnd s).outResp = s.outResp := by
  unfold encEnd; split <;> rfl
@[simp] theorem encEnd_tick (s : State) : (encEnd s).tick = s.tick := by
  unfold encEnd; split <;> rfl
@[simp] theorem encEnd_inv (s : State) : (encEnd s).inv = s.inv := by
  unfold encEnd; split <;> rfl
@[simp] theorem encEnd_tail (s : State) : (encEnd s).tail = s.tail := by
  unfold encEnd; split <;> rfl
@[simp] theorem encEnd_lone (s : State) : (encEnd s).lone = s.lone := by
  unfold encEnd; split <;> rfl
@[simp] theorem encEnd_term (s : State) : (encEnd s).term = s.term := by
  unfold encEnd; split <;> rfl

/-! ## decByte leaves everything but ACC, CNT, TERM, OBUF, INV, TAIL and LONE (43_decode.md R170) -/

@[simp] theorem decByte_mode (s : State) (b : Byte) : (decByte b s).mode = s.mode := by
  unfold decByte decValue decPad; dsimp only; split <;> [rfl; (split <;> first | rfl | (split <;> rfl))]
@[simp] theorem decByte_ie (s : State) (b : Byte) : (decByte b s).ie = s.ie := by
  unfold decByte decValue decPad; dsimp only; split <;> [rfl; (split <;> first | rfl | (split <;> rfl))]
@[simp] theorem decByte_busy (s : State) (b : Byte) : (decByte b s).busy = s.busy := by
  unfold decByte decValue decPad; dsimp only; split <;> [rfl; (split <;> first | rfl | (split <;> rfl))]
@[simp] theorem decByte_done (s : State) (b : Byte) : (decByte b s).done = s.done := by
  unfold decByte decValue decPad; dsimp only; split <;> [rfl; (split <;> first | rfl | (split <;> rfl))]
@[simp] theorem decByte_noout (s : State) (b : Byte) : (decByte b s).noout = s.noout := by
  unfold decByte decValue decPad; dsimp only; split <;> [rfl; (split <;> first | rfl | (split <;> rfl))]
@[simp] theorem decByte_cmderr (s : State) (b : Byte) : (decByte b s).cmderr = s.cmderr := by
  unfold decByte decValue decPad; dsimp only; split <;> [rfl; (split <;> first | rfl | (split <;> rfl))]
@[simp] theorem decByte_inLen (s : State) (b : Byte) : (decByte b s).inLen = s.inLen := by
  unfold decByte decValue decPad; dsimp only; split <;> [rfl; (split <;> first | rfl | (split <;> rfl))]
@[simp] theorem decByte_inCount (s : State) (b : Byte) : (decByte b s).inCount = s.inCount := by
  unfold decByte decValue decPad; dsimp only; split <;> [rfl; (split <;> first | rfl | (split <;> rfl))]
@[simp] theorem decByte_outCount (s : State) (b : Byte) : (decByte b s).outCount = s.outCount := by
  unfold decByte decValue decPad; dsimp only; split <;> [rfl; (split <;> first | rfl | (split <;> rfl))]
@[simp] theorem decByte_anyout (s : State) (b : Byte) : (decByte b s).anyout = s.anyout := by
  unfold decByte decValue decPad; dsimp only; split <;> [rfl; (split <;> first | rfl | (split <;> rfl))]
@[simp] theorem decByte_inputs (s : State) (b : Byte) : (decByte b s).inputs = s.inputs := by
  unfold decByte decValue decPad; dsimp only; split <;> [rfl; (split <;> first | rfl | (split <;> rfl))]
@[simp] theorem decByte_regResp (s : State) (b : Byte) : (decByte b s).regResp = s.regResp := by
  unfold decByte decValue decPad; dsimp only; split <;> [rfl; (split <;> first | rfl | (split <;> rfl))]
@[simp] theorem decByte_outResp (s : State) (b : Byte) : (decByte b s).outResp = s.outResp := by
  unfold decByte decValue decPad; dsimp only; split <;> [rfl; (split <;> first | rfl | (split <;> rfl))]
@[simp] theorem decByte_tick (s : State) (b : Byte) : (decByte b s).tick = s.tick := by
  unfold decByte decValue decPad; dsimp only; split <;> [rfl; (split <;> first | rfl | (split <;> rfl))]

/-! ## decEnd leaves everything but ACC, CNT, OBUF and LONE (43_decode.md R170) -/

@[simp] theorem decEnd_mode (s : State) : (decEnd s).mode = s.mode := by
  unfold decEnd; split <;> rfl
@[simp] theorem decEnd_ie (s : State) : (decEnd s).ie = s.ie := by
  unfold decEnd; split <;> rfl
@[simp] theorem decEnd_busy (s : State) : (decEnd s).busy = s.busy := by
  unfold decEnd; split <;> rfl
@[simp] theorem decEnd_done (s : State) : (decEnd s).done = s.done := by
  unfold decEnd; split <;> rfl
@[simp] theorem decEnd_noout (s : State) : (decEnd s).noout = s.noout := by
  unfold decEnd; split <;> rfl
@[simp] theorem decEnd_cmderr (s : State) : (decEnd s).cmderr = s.cmderr := by
  unfold decEnd; split <;> rfl
@[simp] theorem decEnd_inLen (s : State) : (decEnd s).inLen = s.inLen := by
  unfold decEnd; split <;> rfl
@[simp] theorem decEnd_inCount (s : State) : (decEnd s).inCount = s.inCount := by
  unfold decEnd; split <;> rfl
@[simp] theorem decEnd_outCount (s : State) : (decEnd s).outCount = s.outCount := by
  unfold decEnd; split <;> rfl
@[simp] theorem decEnd_anyout (s : State) : (decEnd s).anyout = s.anyout := by
  unfold decEnd; split <;> rfl
@[simp] theorem decEnd_inputs (s : State) : (decEnd s).inputs = s.inputs := by
  unfold decEnd; split <;> rfl
@[simp] theorem decEnd_regResp (s : State) : (decEnd s).regResp = s.regResp := by
  unfold decEnd; split <;> rfl
@[simp] theorem decEnd_outResp (s : State) : (decEnd s).outResp = s.outResp := by
  unfold decEnd; split <;> rfl
@[simp] theorem decEnd_tick (s : State) : (decEnd s).tick = s.tick := by
  unfold decEnd; split <;> rfl

/-! ## endOfInput and datapathByte -/

@[simp] theorem endOfInput_mode (s : State) : (endOfInput s).mode = s.mode := by
  unfold endOfInput; split <;> simp
@[simp] theorem endOfInput_ie (s : State) : (endOfInput s).ie = s.ie := by
  unfold endOfInput; split <;> simp
@[simp] theorem endOfInput_busy (s : State) : (endOfInput s).busy = s.busy := by
  unfold endOfInput; split <;> simp
@[simp] theorem endOfInput_done (s : State) : (endOfInput s).done = s.done := by
  unfold endOfInput; split <;> simp
@[simp] theorem endOfInput_noout (s : State) : (endOfInput s).noout = s.noout := by
  unfold endOfInput; split <;> simp
@[simp] theorem endOfInput_cmderr (s : State) : (endOfInput s).cmderr = s.cmderr := by
  unfold endOfInput; split <;> simp
@[simp] theorem endOfInput_inLen (s : State) : (endOfInput s).inLen = s.inLen := by
  unfold endOfInput; split <;> simp
@[simp] theorem endOfInput_inCount (s : State) : (endOfInput s).inCount = s.inCount := by
  unfold endOfInput; split <;> simp
@[simp] theorem endOfInput_outCount (s : State) : (endOfInput s).outCount = s.outCount := by
  unfold endOfInput; split <;> simp
@[simp] theorem endOfInput_anyout (s : State) : (endOfInput s).anyout = s.anyout := by
  unfold endOfInput; split <;> simp
@[simp] theorem endOfInput_inputs (s : State) : (endOfInput s).inputs = s.inputs := by
  unfold endOfInput; split <;> simp
@[simp] theorem endOfInput_regResp (s : State) : (endOfInput s).regResp = s.regResp := by
  unfold endOfInput; split <;> simp
@[simp] theorem endOfInput_outResp (s : State) : (endOfInput s).outResp = s.outResp := by
  unfold endOfInput; split <;> simp
@[simp] theorem endOfInput_tick (s : State) : (endOfInput s).tick = s.tick := by
  unfold endOfInput; split <;> simp

/-! ## datapathByte -/

@[simp] theorem datapathByte_mode (s : State) (b : Byte) : (datapathByte b s).mode = s.mode := by
  unfold datapathByte; split <;> simp
@[simp] theorem datapathByte_ie (s : State) (b : Byte) : (datapathByte b s).ie = s.ie := by
  unfold datapathByte; split <;> simp
@[simp] theorem datapathByte_busy (s : State) (b : Byte) : (datapathByte b s).busy = s.busy := by
  unfold datapathByte; split <;> simp
@[simp] theorem datapathByte_done (s : State) (b : Byte) : (datapathByte b s).done = s.done := by
  unfold datapathByte; split <;> simp
@[simp] theorem datapathByte_noout (s : State) (b : Byte) : (datapathByte b s).noout = s.noout := by
  unfold datapathByte; split <;> simp
@[simp] theorem datapathByte_cmderr (s : State) (b : Byte) : (datapathByte b s).cmderr = s.cmderr := by
  unfold datapathByte; split <;> simp
@[simp] theorem datapathByte_inLen (s : State) (b : Byte) : (datapathByte b s).inLen = s.inLen := by
  unfold datapathByte; split <;> simp
@[simp] theorem datapathByte_inCount (s : State) (b : Byte) : (datapathByte b s).inCount = s.inCount := by
  unfold datapathByte; split <;> simp
@[simp] theorem datapathByte_outCount (s : State) (b : Byte) : (datapathByte b s).outCount = s.outCount := by
  unfold datapathByte; split <;> simp
@[simp] theorem datapathByte_anyout (s : State) (b : Byte) : (datapathByte b s).anyout = s.anyout := by
  unfold datapathByte; split <;> simp
@[simp] theorem datapathByte_inputs (s : State) (b : Byte) : (datapathByte b s).inputs = s.inputs := by
  unfold datapathByte; split <;> simp
@[simp] theorem datapathByte_regResp (s : State) (b : Byte) : (datapathByte b s).regResp = s.regResp := by
  unfold datapathByte; split <;> simp
@[simp] theorem datapathByte_outResp (s : State) (b : Byte) : (datapathByte b s).outResp = s.outResp := by
  unfold datapathByte; split <;> simp
@[simp] theorem datapathByte_tick (s : State) (b : Byte) : (datapathByte b s).tick = s.tick := by
  unfold datapathByte; split <;> simp

/-! ## finishInput -/

@[simp] theorem finishInput_mode (s : State) : (finishInput s).mode = s.mode := by
  unfold finishInput; split <;> simp
@[simp] theorem finishInput_ie (s : State) : (finishInput s).ie = s.ie := by
  unfold finishInput; split <;> simp
@[simp] theorem finishInput_cmderr (s : State) : (finishInput s).cmderr = s.cmderr := by
  unfold finishInput; split <;> simp
@[simp] theorem finishInput_inLen (s : State) : (finishInput s).inLen = s.inLen := by
  unfold finishInput; split <;> simp
@[simp] theorem finishInput_inCount (s : State) : (finishInput s).inCount = s.inCount := by
  unfold finishInput; split <;> simp
@[simp] theorem finishInput_outCount (s : State) : (finishInput s).outCount = s.outCount := by
  unfold finishInput; split <;> simp
@[simp] theorem finishInput_anyout (s : State) : (finishInput s).anyout = s.anyout := by
  unfold finishInput; split <;> simp
@[simp] theorem finishInput_inputs (s : State) : (finishInput s).inputs = s.inputs := by
  unfold finishInput; split <;> simp
@[simp] theorem finishInput_regResp (s : State) : (finishInput s).regResp = s.regResp := by
  unfold finishInput; split <;> simp
@[simp] theorem finishInput_outResp (s : State) : (finishInput s).outResp = s.outResp := by
  unfold finishInput; split <;> simp
@[simp] theorem finishInput_tick (s : State) : (finishInput s).tick = s.tick := by
  unfold finishInput; split <;> simp

/-! ## acceptByte -/

@[simp] theorem acceptByte_mode (s : State) (b : Byte) : (acceptByte b s).mode = s.mode := by
  simp [acceptByte]
@[simp] theorem acceptByte_ie (s : State) (b : Byte) : (acceptByte b s).ie = s.ie := by
  simp [acceptByte]
@[simp] theorem acceptByte_cmderr (s : State) (b : Byte) : (acceptByte b s).cmderr = s.cmderr := by
  simp [acceptByte]
@[simp] theorem acceptByte_inLen (s : State) (b : Byte) : (acceptByte b s).inLen = s.inLen := by
  simp [acceptByte]
@[simp] theorem acceptByte_outCount (s : State) (b : Byte) : (acceptByte b s).outCount = s.outCount := by
  simp [acceptByte]
@[simp] theorem acceptByte_anyout (s : State) (b : Byte) : (acceptByte b s).anyout = s.anyout := by
  simp [acceptByte]
@[simp] theorem acceptByte_inputs (s : State) (b : Byte) : (acceptByte b s).inputs = s.inputs := by
  simp [acceptByte]
@[simp] theorem acceptByte_regResp (s : State) (b : Byte) : (acceptByte b s).regResp = s.regResp := by
  simp [acceptByte]
@[simp] theorem acceptByte_outResp (s : State) (b : Byte) : (acceptByte b s).outResp = s.outResp := by
  simp [acceptByte]
@[simp] theorem acceptByte_tick (s : State) (b : Byte) : (acceptByte b s).tick = s.tick := by
  simp [acceptByte]

@[simp] theorem acceptByte_inCount (s : State) (b : Byte) : (acceptByte b s).inCount = s.inCount + 1#32 := by
  simp [acceptByte]

/-! ## CheckComplete (41_stream_ports.md R140): it fires, or it does nothing -/

/-- The condition of R140. -/
abbrev Finished (s : State) : Prop := s.busy = true ∧ s.inCount = s.inLen ∧ s.obuf = []

theorem checkComplete_fires {s : State} (h : Finished s) :
    checkComplete s = { s with busy := false, done := true, noout := s.nooutAtCompletion } := if_pos h

theorem checkComplete_idle {s : State} (h : ¬ Finished s) : checkComplete s = s := if_neg h

theorem checkComplete_cases (s : State) :
    (Finished s ∧ checkComplete s = { s with busy := false, done := true, noout := s.nooutAtCompletion }) ∨
      (¬ Finished s ∧ checkComplete s = s) := by
  by_cases h : Finished s
  · exact .inl ⟨h, checkComplete_fires h⟩
  · exact .inr ⟨h, checkComplete_idle h⟩

/-! ## EncByte and EncEnd on a group that holds the bytes `bs` -/

/-- EncByte with fewer than two bytes held (42_encode.md R151). -/
theorem encByte_opens {s : State} {bs : List Byte} (b : Byte) (h : HoldsBytes s bs) (h2 : bs.length < 2) :
    encByte b s = { s with acc := groupOf (bs ++ [b]), cnt := s.cnt + 1 } := by
  obtain ⟨hc, hl, ha⟩ := h
  have hne : s.cnt ≠ 2 := by
    intro e
    rw [e] at hc
    simp at hc
    omega
  simp [encByte, hne, ha, insertByte_groupOf bs s.cnt b hc hl]

/-- EncByte with two bytes held: the four characters of the group (42_encode.md R151, R152). -/
theorem encByte_emits {s : State} {bs : List Byte} (b : Byte) (h : HoldsBytes s bs) (h2 : bs.length = 2) :
    encByte b s = { s with acc := 0#24, cnt := 0, obuf := s.obuf ++ encodeText (bs ++ [b]) } := by
  obtain ⟨hc, hl, ha⟩ := h
  have he : s.cnt = 2 := Fin.ext (by rw [hc, h2]; rfl)
  have hi := insertByte_groupOf bs s.cnt b hc hl
  obtain ⟨x, y, rfl⟩ := List.length_eq_two.mp h2
  rw [he] at hi
  simp only [List.cons_append, List.nil_append] at hi ⊢
  rw [← emitQuad_groupOf x y b]
  simp [encByte, he, ha, hi, State.closeWith]

/-- EncEnd closes a partial group with its characters and the padding (42_encode.md R153 to R156). -/
theorem encEnd_pads {s : State} {bs : List Byte} (h : HoldsBytes s bs) :
    encEnd s = { s with acc := 0#24, cnt := 0, obuf := s.obuf ++ encodeText bs } := by
  obtain ⟨hc, hl, ha⟩ := h
  match bs, hl with
  | [], _ =>
    have he : s.cnt = 0 := Fin.ext hc
    have hz : s.acc = 0#24 := by rw [ha]; rfl
    cases s
    simp_all [encEnd, encodeText]
  | [a], _ =>
    have he : s.cnt = 1 := Fin.ext hc
    simp [encEnd, he, ha, State.closeWith, charAt, groupOf, slice0_group, slice1_group, encodeText, firstChar, secondChar]
  | [a, b], _ =>
    have he : s.cnt = 2 := Fin.ext hc
    simp [encEnd, he, ha, State.closeWith, charAt, groupOf, slice0_group, slice1_group, slice2_group, encodeText, firstChar,
      secondChar, thirdChar]

/-! ## DecByte, CloseQuad and DecEnd on a quad that holds the values `vs` -/

/-- A quad of a 2-bit count holds at most three values. -/
theorem HoldsValues.length_le {s : State} {vs : List Sextet} (h : HoldsValues s vs) : vs.length ≤ 3 := by
  have := s.cnt.isLt
  omega

/-- CloseQuad (43_decode.md R176). -/
theorem closeQuad_emits {s : State} {vs : List Sextet} (h : HoldsValues s vs) :
    closeQuad s = { s with
      acc := 0#24, cnt := 0, obuf := s.obuf ++ quadBytes vs, lone := s.lone || decide (vs.length = 1) } := by
  obtain ⟨hc, ha⟩ := h
  have hl : (s.cnt == 1) = decide (vs.length = 1) := by
    rw [← hc, Bool.eq_iff_iff, beq_iff_eq, decide_eq_true_iff]
    exact Fin.ext_iff
  simp [closeQuad, State.closeWith, ha, closedBytes_quadOf vs s.cnt hc, hl]

/-- A VALUE byte with fewer than three values held (43_decode.md R172). -/
theorem decValue_adds {s : State} {vs : List Sextet} (v : Sextet) (h : HoldsValues s vs) (h3 : vs.length < 3) :
    decValue v s = { s with acc := quadOf (vs ++ [v]), cnt := s.cnt + 1 } := by
  obtain ⟨hc, ha⟩ := h
  have hne : s.cnt ≠ 3 := by
    intro e
    rw [e] at hc
    simp at hc
    omega
  simp [decValue, hne, ha, insertValue_quadOf vs s.cnt v hc]

/-- The fourth value completes the quad (43_decode.md R173). -/
theorem decValue_completes {s : State} {vs : List Sextet} (v : Sextet) (h : HoldsValues s vs) (h3 : vs.length = 3) :
    decValue v s = { s with acc := 0#24, cnt := 0, obuf := s.obuf ++ quadBytes (vs ++ [v]) } := by
  obtain ⟨hc, ha⟩ := h
  have he : s.cnt = 3 := Fin.ext (by rw [hc, h3]; rfl)
  have hi := insertValue_quadOf vs s.cnt v hc
  obtain ⟨x, y, z, rfl⟩ := List.length_eq_three.mp h3
  rw [he] at hi
  simp only [List.cons_append, List.nil_append] at hi ⊢
  rw [← fullQuad_bytes]
  simp [decValue, he, ha, hi, State.closeWith]

/-- A PAD byte (43_decode.md R174, R177). -/
theorem decPad_empty {s : State} (h : s.cnt = 0) : decPad s = { s with term := true } := if_pos h

theorem decPad_closes {s : State} (h : s.cnt ≠ 0) : decPad s = closeQuad s := if_neg h

/-- DecByte by the state of decoding and the class of the byte (43_decode.md R172, R178). -/
theorem decByte_afterTerm {s : State} (b : Byte) (h : s.term = true) : decByte b s = afterTerm b s := if_pos h

theorem decByte_value {s : State} {b : Byte} {v : Sextet} (ht : s.term = false) (h : dlut b = .value v) :
    decByte b s = decValue v s := by simp [decByte, ht, h]

theorem decByte_pad {s : State} {b : Byte} (ht : s.term = false) (h : dlut b = .pad) : decByte b s = decPad s := by
  simp [decByte, ht, h]

theorem decByte_invalid {s : State} {b : Byte} (ht : s.term = false) (h : dlut b = .invalid) :
    decByte b s = decInvalid b s := by simp [decByte, ht, h]

/-- DecEnd (43_decode.md R179) on a quad that is empty once decoding has terminated. -/
theorem decEnd_closes {s : State} {vs : List Sextet} (h : HoldsValues s vs) (ht : s.term = true → vs = []) :
    decEnd s = { s with
      acc := 0#24, cnt := 0, obuf := s.obuf ++ quadBytes vs, lone := s.lone || decide (vs.length = 1) } := by
  unfold decEnd
  split
  · exact closeQuad_emits h
  · rename_i hn
    have hv : vs = [] := by
      by_contra hne
      apply hn
      refine ⟨?_, ?_⟩
      · cases e : s.term
        · rfl
        · exact absurd (ht e) hne
      · intro e
        apply hne
        apply List.length_eq_zero_iff.mp
        rw [← h.1, e]; rfl
    subst hv
    obtain ⟨hc, ha⟩ := h
    have he : s.cnt = 0 := Fin.ext hc
    have hz : s.acc = 0#24 := by rw [ha]; rfl
    cases s
    simp_all [quadBytes]

/-! ## The two stream transfers -/

/-- PUSH when in_ready = 1 (41_stream_ports.md R132). -/
theorem execPush_accepts {s : State} (b : Byte) (h : s.inReady = true) : execPush b s = .next (acceptByte b s) := by
  simp [execPush, h]

/-- PUSH when in_ready = 0 (41_stream_ports.md R130). -/
theorem execPush_waits {s : State} (b : Byte) (h : s.inReady = false) : execPush b s = .next s := by
  simp [execPush, h]

/-- in_ready (41_stream_ports.md R131). -/
theorem inReady_iff (s : State) : s.inReady = true ↔ s.busy = true ∧ s.inCount ≠ s.inLen ∧ s.obuf = [] := by
  simp [State.inReady, and_assoc]

/-- The datapath of the running mode (41_stream_ports.md R132). -/
theorem datapathByte_encode {s : State} (b : Byte) (h : s.mode = .encode) : datapathByte b s = encByte b s := by
  simp [datapathByte, h]

theorem datapathByte_decode {s : State} (b : Byte) (h : s.mode = .decode) : datapathByte b s = decByte b s := by
  simp [datapathByte, h]

/-- The end of input of the running mode (41_stream_ports.md R139). -/
theorem endOfInput_encode {s : State} (h : s.mode = .encode) : endOfInput s = encEnd s := by
  simp [endOfInput, h]

theorem endOfInput_decode {s : State} (h : s.mode = .decode) : endOfInput s = decEnd s := by
  simp [endOfInput, h]

/-- An accepted byte that is not the last one goes through the datapath and ends nothing (41_stream_ports.md R132). -/
theorem execPush_continues {s : State} (b : Byte) (hr : s.inReady = true) (hn : s.inCount + 1#32 ≠ s.inLen) :
    execPush b s = .next (datapathByte b { s with inCount := s.inCount + 1#32 }) := by
  rw [execPush_accepts b hr]
  unfold acceptByte finishInput
  rw [if_neg (by simpa using hn), checkComplete_idle]
  simp [Finished, hn]

/-- The last byte goes through the datapath, then the input ends, then the operation may complete (41_stream_ports.md R132, R138). -/
theorem execPush_ends {s : State} (b : Byte) (hr : s.inReady = true) (hn : s.inCount + 1#32 = s.inLen) :
    execPush b s = .next (checkComplete (endOfInput (datapathByte b { s with inCount := s.inLen }))) := by
  rw [execPush_accepts b hr]
  unfold acceptByte finishInput
  rw [if_pos (by simpa using hn), hn]

/-- PULL when out_valid = 1 (41_stream_ports.md R135). -/
theorem execPull_delivers {s : State} {b : Byte} {rest : List Byte} (h : s.obuf = b :: rest) :
    execPull s = .next (deliverByte b rest s) := by
  simp [execPull, h]

/-- PULL when out_valid = 0. -/
theorem execPull_waits {s : State} (h : s.obuf = []) : execPull s = .next s := by
  simp [execPull, h]

end Sys2Proof.Machine
end

