-- ==== Sys2Proof/Laws/Held.lean ====
section
/-! SUPPORT. The open group and the open quad: what ACC holds, from R39 item 6 and back, and how many bytes a group or a quad gives. -/

namespace Sys2Proof.Machine

/-! ## UnfilledZero says that the group holds some bytes, the quad some values -/

/-- An Encode group whose unfilled positions are 0 holds some bytes (10_state.md R30, R39 item 6). -/
theorem filled_bytes {s : State} (hm : s.mode = .encode) (h2 : s.cnt ≤ 2) (hu : UnfilledZero s) : ∃ bs, HoldsBytes s bs := by
  unfold UnfilledZero at hu
  rw [hm] at hu
  have hc : s.cnt = 0 ∨ s.cnt = 1 ∨ s.cnt = 2 := by
    revert h2; generalize s.cnt = c; revert c; decide
  rcases hc with e | e | e <;> rw [e] at hu <;> simp [filledBits] at hu
  · refine ⟨[], by simp [e], by simp, ?_⟩
    apply BitVec.eq_of_getLsbD_eq
    intro j hj
    rw [hu j hj]; simp [groupOf]
  · refine ⟨[s.acc.extractLsb' 16 8], by simp [e], by simp, ?_⟩
    apply BitVec.eq_of_getLsbD_eq
    intro j hj
    simp only [groupOf, BitVec.getLsbD_append, BitVec.getLsbD_extractLsb', List.getD_cons_zero, List.getD_cons_succ, List.getD_nil]
    by_cases h : j < 16
    · rw [hu j h]; simp
      intro h8; simp [show j - 8 < 8 by omega]
    · simp [show ¬ j < 8 by omega, show ¬ j - 8 < 8 by omega, show j - 8 - 8 < 8 by omega, show 16 + (j-8-8) = j by omega]
  · refine ⟨[s.acc.extractLsb' 16 8, s.acc.extractLsb' 8 8], by simp [e], by simp, ?_⟩
    apply BitVec.eq_of_getLsbD_eq
    intro j hj
    simp only [groupOf, BitVec.getLsbD_append, BitVec.getLsbD_extractLsb', List.getD_cons_zero, List.getD_cons_succ, List.getD_nil]
    by_cases h : j < 8
    · rw [hu j h]; simp [h]
    · by_cases h' : j - 8 < 8
      · simp [h, h', show 8 + (j-8) = j by omega]
      · simp [h, h', show j - 8 - 8 < 8 by omega, show 16 + (j-8-8) = j by omega]

/-- A Decode quad whose unfilled positions are 0 holds some values (10_state.md R30, R39 item 6). -/
theorem filled_values {s : State} (hm : s.mode = .decode) (hu : UnfilledZero s) : ∃ vs, HoldsValues s vs := by
  unfold UnfilledZero at hu
  rw [hm] at hu
  have hc : s.cnt = 0 ∨ s.cnt = 1 ∨ s.cnt = 2 ∨ s.cnt = 3 := by
    generalize s.cnt = c; revert c; decide
  rcases hc with e | e | e | e <;> rw [e] at hu <;> simp [filledBits] at hu
  · refine ⟨[], by simp [e], ?_⟩
    apply BitVec.eq_of_getLsbD_eq
    intro j hj
    rw [hu j hj]; simp [quadOf]
  · refine ⟨[s.acc.extractLsb' 18 6], by simp [e], ?_⟩
    apply BitVec.eq_of_getLsbD_eq
    intro j hj
    have hu' : j < 18 → s.acc.getLsbD j = false := fun h => hu j (by simpa using h)
    clear hu
    simp only [quadOf, BitVec.getLsbD_append, BitVec.getLsbD_extractLsb', List.getD_cons_zero, List.getD_cons_succ, List.getD_nil]
    interval_cases j <;> simp_all
  · refine ⟨[s.acc.extractLsb' 18 6, s.acc.extractLsb' 12 6], by simp [e], ?_⟩
    apply BitVec.eq_of_getLsbD_eq
    intro j hj
    have hu' : j < 12 → s.acc.getLsbD j = false := fun h => hu j (by simpa using h)
    clear hu
    simp only [quadOf, BitVec.getLsbD_append, BitVec.getLsbD_extractLsb', List.getD_cons_zero, List.getD_cons_succ, List.getD_nil]
    interval_cases j <;> simp_all
  · refine ⟨[s.acc.extractLsb' 18 6, s.acc.extractLsb' 12 6, s.acc.extractLsb' 6 6], by simp [e], ?_⟩
    apply BitVec.eq_of_getLsbD_eq
    intro j hj
    have hu' : j < 6 → s.acc.getLsbD j = false := fun h => hu j (by simpa using h)
    clear hu
    simp only [quadOf, BitVec.getLsbD_append, BitVec.getLsbD_extractLsb', List.getD_cons_zero, List.getD_cons_succ, List.getD_nil]
    interval_cases j <;> simp_all

/-- A group that holds bytes has 0 in its unfilled positions. -/
theorem unfilled_of_bytes {s : State} {bs} (hm : s.mode = .encode) (h : HoldsBytes s bs) : UnfilledZero s := by
  obtain ⟨hc, hl, ha⟩ := h
  intro j hj
  rw [ha]
  simp only [hm, filledBits, hc] at hj
  match bs, hl with
  | [], _ => simp [groupOf]
  | [a], _ =>
    simp at hj
    simp only [groupOf, BitVec.getLsbD_append, List.getD_cons_zero, List.getD_cons_succ, List.getD_nil]
    interval_cases j <;> simp
  | [a, b], _ =>
    simp at hj
    simp only [groupOf, BitVec.getLsbD_append, List.getD_cons_zero, List.getD_cons_succ, List.getD_nil]
    interval_cases j <;> simp

/-- A quad that holds values has 0 in its unfilled positions. -/
theorem unfilled_of_values {s : State} {vs} (hm : s.mode = .decode) (h : HoldsValues s vs) : UnfilledZero s := by
  have hl := h.length_le
  obtain ⟨hc, ha⟩ := h
  intro j hj
  rw [ha]
  simp only [hm, filledBits, hc] at hj
  match vs, hl with
  | [], _ => simp [quadOf]
  | [a], _ =>
    simp at hj
    simp only [quadOf, BitVec.getLsbD_append, List.getD_cons_zero, List.getD_cons_succ, List.getD_nil]
    interval_cases j <;> simp
  | [a, b], _ =>
    simp at hj
    simp only [quadOf, BitVec.getLsbD_append, List.getD_cons_zero, List.getD_cons_succ, List.getD_nil]
    interval_cases j <;> simp
  | [a, b, c], _ =>
    simp at hj
    simp only [quadOf, BitVec.getLsbD_append, List.getD_cons_zero, List.getD_cons_succ, List.getD_nil]
    interval_cases j <;> simp

/-! ## Counts -/

/-- A non-empty input has a non-empty Encode. -/
theorem encodeText_ne_nil (bs : List Byte) (h : bs ≠ []) : encodeText bs ≠ [] := by
  match bs, h with
  | [a], _ => simp [encodeText]
  | [a, b], _ => simp [encodeText]
  | a :: b :: c :: r, _ => simp [encodeText]

/-- CNT = 0 exactly when the quad holds no value. -/
theorem HoldsValues.cnt_eq_zero_iff {s : State} {vs} (h : HoldsValues s vs) : s.cnt = 0 ↔ vs = [] := by
  rw [← List.length_eq_zero_iff, ← h.1]; exact Fin.ext_iff

/-- One group gives at most four characters (41_stream_ports.md R143). -/
theorem encodeText_length_le (bs : List Byte) (h : bs.length ≤ 3) : (encodeText bs).length ≤ 4 := by
  match bs, h with
  | [], _ => simp [encodeText]
  | [a], _ => simp [encodeText]
  | [a, b], _ => simp [encodeText]
  | [a, b, c], _ => simp [encodeText]

/-- One quad gives at most three bytes (41_stream_ports.md R143). -/
theorem quadBytes_length_le (vs : List Sextet) : (quadBytes vs).length ≤ 3 := by
  unfold quadBytes; split <;> simp

/-- The last byte of a Decode gives at most three bytes (41_stream_ports.md R143). -/
theorem decodeFrom_singleton_length_le (vs : List Sextet) (b) : (decodeFrom vs [b]).length ≤ 3 := by
  simp only [decodeFrom]
  cases dlut b with
  | value v => dsimp only; split
               · have := quadBytes_length_le (vs ++ [v]); simp [quadBytes] at *; omega
               · exact quadBytes_length_le _
  | pad => dsimp only; split
           · simp
           · have := quadBytes_length_le vs; simp [quadBytes] at *; omega
  | invalid => exact quadBytes_length_le _

end Sys2Proof.Machine
end

