-- ==== Sys2Proof/Laws/HostPort.lean ====
section
/-! SUPPORT. What a step can do, said once; which transactions a cycle's register access and stream transfer can be. -/

namespace Sys2Proof.Machine

/-- Everything a step that answers a next state can have done: nothing was driven; a word waited; a word was performed; a reset cycle; a
cycle with its register access first and its transfer second (70_reset_and_hazards.md R220, R231). -/
theorem step_cases {s t : State} (h : step s = .next t) :
    (s.inputs = [] ∧ t = s.openStep) ∨
      (∃ w rest i, s.inputs = .htw w :: rest ∧ decode w = .ok i ∧ waits i s.openStep = true ∧ t = s.openStep) ∨
      (∃ w rest i, s.inputs = .htw w :: rest ∧ decode w = .ok i ∧ waits i s.openStep = false ∧
        exec i { s.openStep with inputs := rest } = .next t) ∨
      (∃ c rest, s.inputs = .cycle c :: rest ∧ c.rst = true ∧ t = State.applyReset { s.openStep with inputs := rest }) ∨
      (∃ c rest u, s.inputs = .cycle c :: rest ∧ c.rst = false ∧
        execIf c.regEvent { s.openStep with inputs := rest } = .next u ∧
        execIf (c.streamEvent { s.openStep with inputs := rest }) u = .next t) := by
  simp only [step, performNext] at h
  split at h
  · rename_i hin
    cases h
    exact .inl ⟨hin, rfl⟩
  · rename_i w rest hin
    unfold runWord at h
    split at h
    · cases h
    · rename_i i hd
      split at h
      · rename_i hw
        cases h
        exact .inr (.inl ⟨w, rest, i, hin, hd, hw, rfl⟩)
      · rename_i hw
        exact .inr (.inr (.inl ⟨w, rest, i, hin, hd, by simpa using hw, h⟩))
  · rename_i c rest hin
    unfold runCycle at h
    split at h
    · rename_i hr
      cases h
      exact .inr (.inr (.inr (.inl ⟨c, rest, hin, hr, rfl⟩)))
    · rename_i hr
      cases hu : execIf c.regEvent { s.openStep with inputs := rest } with
      | next u =>
        rw [hu] at h
        exact .inr (.inr (.inr (.inr ⟨c, rest, u, hin, by simpa using hr, hu, h⟩)))
      | fault f => rw [hu] at h; cases h
      | refused e => rw [hu] at h; cases h

/-- A register write is no stream transfer (30_encoding.md R73). -/
theorem writeInstr_not_transfer (a : BitVec 3) (d : Word) : (∀ b, writeInstr a d ≠ .push b) ∧ writeInstr a d ≠ .pull := by
  unfold writeInstr ctrlInstr
  split_ifs <;> simp

/-- A register read is no stream transfer. -/
theorem readInstr_not_transfer (a : BitVec 3) : (∀ b, readInstr a ≠ .push b) ∧ readInstr a ≠ .pull := by
  unfold readInstr
  split_ifs <;> simp

/-- A cycle's register access is no stream transfer. -/
theorem Cycle.regEvent_not_transfer {c : Cycle} {i : Instr} (h : c.regEvent = some i) : (∀ b, i ≠ .push b) ∧ i ≠ .pull := by
  unfold Cycle.regEvent at h
  split_ifs at h <;> cases h
  · exact writeInstr_not_transfer _ _
  · exact readInstr_not_transfer _

/-- A cycle's stream transfer is a PUSH of an offered byte with in_ready = 1, or a PULL the host takes with out_valid = 1
(41_stream_ports.md R130, R133). -/
theorem Cycle.streamEvent_enabled {c : Cycle} {s : State} {i : Instr} (h : c.streamEvent s = some i) :
    (i = .push c.inData ∧ c.inValid = true ∧ s.inReady = true) ∨ (i = .pull ∧ c.outReady = true ∧ s.outValid = true) := by
  unfold Cycle.streamEvent at h
  split_ifs at h with hp hq <;> cases h
  · exact .inl ⟨rfl, Bool.and_eq_true_iff.mp hp⟩
  · exact .inr ⟨rfl, Bool.and_eq_true_iff.mp hq⟩

/-- A PUSH that does something is enabled (41_stream_ports.md R132). -/
theorem execPush_enabled {b : Byte} {s t : State} (h : execPush b s = .next t) : t = s ∨ s.inReady = true := by
  unfold execPush at h
  split at h
  · exact .inr ‹_›
  · cases h
    exact .inl rfl

/-- A PULL that does something is enabled (41_stream_ports.md R135). -/
theorem execPull_enabled {s t : State} (h : execPull s = .next t) : t = s ∨ s.outValid = true := by
  unfold execPull at h
  split at h
  · rename_i b rest ho
    exact .inr (by simp [State.outValid, ho])
  · cases h
    exact .inl rfl

end Sys2Proof.Machine
end

