-- ==== Sys2Proof/Laws/Operation.lean ====
section
/-! SUPPORT. What the operations that begin and end an operation do, once each, and how the parts of a whole operation compose
(70_reset_and_hazards.md R224). -/

namespace Sys2Proof.Machine

/-! ## The end of PUSH, PULL and START -/

/-- Nothing of the open group or quad is left by EndOfInput at the start of an operation (42_encode.md R155, 43_decode.md R179). -/
theorem endOfInput_startOperation (m : Mode) (s : State) : endOfInput (s.startOperation m) = s.startOperation m := by
  cases m <;> simp [endOfInput, encEnd, decEnd, State.startOperation]

/-- Begin (40_host_interface.md R108) is its assignments and CheckComplete: its end of input closes an empty group. -/
theorem beginOperation_eq (m : Mode) (s : State) : beginOperation m s = checkComplete (s.startOperation m) := by
  simp [beginOperation, endOfInput_startOperation]

/-- Begin on an empty buffer: IN_LEN = 0 ends the operation in the same event. -/
theorem beginOperation_cases (m : Mode) (s : State) (h : s.obuf = []) :
    beginOperation m s =
      if s.inLen = 0#32 then { s.startOperation m with busy := false, done := true } else s.startOperation m := by
  rw [beginOperation_eq]
  by_cases z : s.inLen = 0#32
  · rw [if_pos z, checkComplete_fires (s := s.startOperation m) ⟨rfl, z.symm, h⟩]
    simp [State.nooutAtCompletion, z, State.startOperation]
  · rw [if_neg z, checkComplete_idle (s := s.startOperation m) fun f => z f.2.1.symm]

/-- The end of PUSH: the operation goes on as it was, or it completes with nothing left to deliver. -/
theorem finishInput_cases (s : State) :
    ((finishInput s).busy = s.busy ∧ (finishInput s).done = s.done ∧ (finishInput s).noout = s.noout) ∨
      (s.busy = true ∧ s.inCount = s.inLen ∧ (finishInput s).obuf = [] ∧ (finishInput s).busy = false ∧
        (finishInput s).done = true ∧ (finishInput s).noout = s.nooutAtCompletion) := by
  unfold finishInput
  rcases checkComplete_cases (if s.inCount = s.inLen then endOfInput s else s) with ⟨⟨h1, h2, h3⟩, e⟩ | ⟨h, e⟩
  · right
    rw [e]
    refine ⟨?_, ?_, h3, rfl, rfl, ?_⟩
    · split at h1 <;> simpa using h1
    · split at h2 <;> simpa using h2
    · simp only [State.nooutAtCompletion]
      split <;> simp
  · left
    rw [e]
    split <;> simp

/-- A PULL that does not end the operation (41_stream_ports.md R135). -/
theorem deliverByte_continues {b : Byte} {rest : List Byte} {s : State}
    (h : ¬ (s.busy = true ∧ s.inCount = s.inLen ∧ rest = [])) :
    deliverByte b rest s =
      { s with obuf := rest, outCount := s.outCount + 1#32, anyout := true, outResp := some b } :=
  checkComplete_idle h

/-- The PULL that ends the operation (41_stream_ports.md R135, R140). -/
theorem deliverByte_ends {b : Byte} {s : State} (hb : s.busy = true) (hc : s.inCount = s.inLen) :
    deliverByte b [] s =
      { s with
        obuf := [], outCount := s.outCount + 1#32, anyout := true, outResp := some b,
        busy := false, done := true, noout := false } := by
  unfold deliverByte
  rw [checkComplete_fires
    (s := { s with obuf := [], outCount := s.outCount + 1#32, anyout := true, outResp := some b }) ⟨hb, hc, rfl⟩]
  simp [State.nooutAtCompletion]

/-! ## Parts of an operation in order -/

theorem Transfer.andThen_next (out more : List Byte) (s t : State) (k : State → Transfer) (h : k s = .next (more, t)) :
    Transfer.andThen (.next (out, s)) k = .next (out ++ more, t) := by
  simp [Transfer.andThen, h]

/-- A PUSH delivers nothing. -/
theorem execPush_outResp {b : Byte} {s t : State} (h : execPush b s = .next t) : t.outResp = s.outResp := by
  unfold execPush at h
  cases h
  split <;> simp

theorem event_push {s t : State} (b : Byte) (h : exec (.push b) s.openStep = .next t) :
    event (.push b) s = .next ([], t) := by
  have e : t.outResp = none := execPush_outResp h
  simp [event, h, e]

/-- Nothing to take. -/
theorem drain_empty {t : State} (h : t.obuf = []) : drain t.obuf.length t = .next ([], t) := by
  rw [h]; rfl

/-- One input byte, then all it produced, then the rest (41_stream_ports.md R137). -/
theorem feed_cons {s t u v : State} {b : Byte} {rest out more : List Byte} (h : exec (.push b) s.openStep = .next t)
    (hd : drain t.obuf.length t = .next (out, u)) (hf : feed rest u = .next (more, v)) :
    feed (b :: rest) s = .next (out ++ more, v) := by
  simp only [feed]
  rw [event_push b h, Transfer.andThen_next [] (out ++ more) t v]
  · rfl
  · rw [hd]
    exact Transfer.andThen_next _ _ _ _ _ hf

/-- Encode works group by group (20_memory.md R56). -/
theorem encodeText_group_append (bs rest : List Byte) (h : bs.length = 3) :
    encodeText (bs ++ rest) = encodeText bs ++ encodeText rest := by
  obtain ⟨a, b, c, rfl⟩ := List.length_eq_three.mp h
  simp [encodeText]

/-- What taking the whole of OBUF leaves: the bytes in order, each counted; the operation ends with the last byte if its input has
ended, and otherwise goes on as it was. -/
structure Drained (s u : State) : Prop where
  obuf : u.obuf = []
  mode : u.mode = s.mode
  ie : u.ie = s.ie
  inv : u.inv = s.inv
  tail : u.tail = s.tail
  lone : u.lone = s.lone
  cmderr : u.cmderr = s.cmderr
  inLen : u.inLen = s.inLen
  inCount : u.inCount = s.inCount
  acc : u.acc = s.acc
  cnt : u.cnt = s.cnt
  term : u.term = s.term
  outCount : u.outCount = s.outCount + BitVec.ofNat 32 s.obuf.length
  anyout : u.anyout = (s.anyout || decide (s.obuf ≠ []))
  goesOn : s.inCount ≠ s.inLen ∨ s.obuf = [] → u.busy = s.busy ∧ u.done = s.done ∧ u.noout = s.noout
  ends : s.inCount = s.inLen → s.obuf ≠ [] → u.busy = false ∧ u.done = true ∧ u.noout = false

/-- As many PULLs as OBUF holds bytes (41_stream_ports.md R135 to R137). -/
theorem drain_delivers (n : Nat) : ∀ s : State, s.obuf.length = n → s.busy = true →
    ∃ u, drain n s = .next (s.obuf, u) ∧ Drained s u := by
  induction n with
  | zero =>
    intro s h _
    have ho : s.obuf = [] := List.length_eq_zero_iff.mp h
    exact ⟨s, by simp [drain, ho], by constructor <;> simp [ho]⟩
  | succ n ih =>
    intro s h hb
    obtain ⟨b, r, ho⟩ := List.exists_cons_of_length_eq_add_one h
    have hr : r.length = n := by rw [ho] at h; simpa using h
    have hp : exec .pull s.openStep = .next (deliverByte b r s.openStep) := execPull_delivers ho
    by_cases x : s.inCount = s.inLen ∧ r = []
    · obtain ⟨hc, rfl⟩ := x
      obtain rfl : n = 0 := hr.symm
      rw [deliverByte_ends (s := s.openStep) hb hc] at hp
      refine ⟨_, by simp only [drain, event, hp, Transfer.andThen, ho]; rfl, ?_⟩
      constructor <;> simp [ho, hc]
    · rw [deliverByte_continues (s := s.openStep) fun y => x y.2] at hp
      obtain ⟨u, h1, d⟩ :=
        ih { s.openStep with obuf := r, outCount := s.openStep.outCount + 1#32, anyout := true, outResp := some b } hr hb
      refine ⟨u, by simp only [drain, event, hp, Transfer.andThen, h1, ho]; rfl,
        ⟨d.obuf, d.mode, d.ie, d.inv, d.tail, d.lone, d.cmderr, d.inLen, d.inCount, d.acc, d.cnt, d.term, ?_, ?_, ?_, ?_⟩⟩
      · rw [d.outCount, ho]
        simp only [List.length_cons]
        rw [BitVec.add_assoc, ← BitVec.ofNat_add, Nat.add_comm]
        rfl
      · rw [d.anyout, ho]; simp
      · rintro (y | y)
        · exact d.goesOn (.inl y)
        · simp [ho] at y
      · intro y _
        exact d.ends y fun z => x ⟨y, z⟩

end Sys2Proof.Machine
end

