-- ==== Sys2Proof/Laws/PerInstr.lean ====
section
/-! SUPPORT. The family RowMatch: a well-formed instruction's word has the fixed bits of its own row of the match and mask table
(30_encoding.md R74). One lemma per constructor. -/

namespace Sys2Proof.Laws.RowMatch

/-- Some row of the table has the instruction's mnemonic, and the instruction's word has that row's fixed bits. -/
def Statement (i : Instr) : Prop :=
  i.WellFormed → ∃ r ∈ opRows, r.mnemonic = i.mnemonic ∧ r.Matches (encode i)

/-- The fixed bits of a write of word index `a`: the top byte, D free. -/
theorem write_top (a : BitVec 3) (d : Word) :
    makeHtw 0b01#2 a d &&& 0xFF00000000#40 = makeHtw 0b01#2 a 0#32 := by
  apply BitVec.eq_of_getLsbD_eq
  intro j hj
  simp only [makeHtw, BitVec.getLsbD_and, BitVec.getLsbD_append]
  by_cases h : j < 32
  · have m : (0xFF00000000#40).getLsbD j = false := by
      interval_cases j <;> rfl
    rw [m]; simp [h]
  · have m : (0xFF00000000#40).getLsbD j = true := by
      interval_cases j <;> first | omega | rfl
    rw [m]; simp [h]

/-- D of a write under a mask of D's low bits. -/
theorem write_masked (d low : Word) :
    makeHtw 0b01#2 0#3 d &&& (0xFF#8 ++ low) = makeHtw 0b01#2 0#3 (d &&& low) := by
  apply BitVec.eq_of_getLsbD_eq
  intro j hj
  simp only [makeHtw, BitVec.getLsbD_and, BitVec.getLsbD_append]
  by_cases h : j < 32
  · simp [h]
  · have m : (0xFF#8).getLsbD (j - 32) = true := by
      obtain ⟨k, rfl⟩ : ∃ k, j = 32 + k := ⟨j - 32, by omega⟩
      have hk : k < 8 := by omega
      interval_cases k <;> rfl
    simp [h, m]

/-- START of a CTRL word, by mask. -/
theorem ctrl_low1 (start : Bool) (m : Mode) (ie : Bool) (ign : BitVec 29) :
    ctrlData start m ie ign &&& 1#32 = if start then 1#32 else 0#32 := by
  apply BitVec.eq_of_getLsbD_eq
  intro j hj
  have e := ctrlData_start start m ie ign
  rcases j with _ | j
  · rw [BitVec.getLsbD_and, e]; cases start <;> rfl
  · rw [BitVec.getLsbD_and, BitVec.getLsbD_one]; cases start <;> simp

/-- START and MODE of a CTRL word, by mask. -/
theorem ctrl_low2 (start : Bool) (m : Mode) (ie : Bool) (ign : BitVec 29) :
    ctrlData start m ie ign &&& 3#32 = (0#30 ++ BitVec.ofBool m.bit ++ BitVec.ofBool start : BitVec 32) := by
  apply BitVec.eq_of_getLsbD_eq
  intro j hj
  have e0 := ctrlData_start start m ie ign
  have e1 := ctrlData_mode start m ie ign
  simp only [BitVec.getLsbD_append]
  rcases j with _ | _ | j
  · rw [BitVec.getLsbD_and, e0]; cases start <;> simp
  · rw [BitVec.getLsbD_and, e1]; cases m <;> simp [Mode.bit]
  · rw [BitVec.getLsbD_and]
    have hm : (3#32).getLsbD (j + 1 + 1) = false := by
      have : j < 30 := by omega
      interval_cases j <;> rfl
    simp [hm]

theorem rdCtrl : Statement .rdCtrl := fun _ => ⟨⟨"RD_CTRL", 0x0000000000#40, 0xFFFFFFFFFF#40⟩, by decide, by decide, by decide⟩
theorem rdStatus : Statement .rdStatus := fun _ => ⟨⟨"RD_STATUS", 0x0800000000#40, 0xFFFFFFFFFF#40⟩, by decide, by decide, by decide⟩
theorem rdInLen : Statement .rdInLen := fun _ => ⟨⟨"RD_IN_LEN", 0x1000000000#40, 0xFFFFFFFFFF#40⟩, by decide, by decide, by decide⟩
theorem rdInCount : Statement .rdInCount := fun _ => ⟨⟨"RD_IN_COUNT", 0x1800000000#40, 0xFFFFFFFFFF#40⟩, by decide, by decide, by decide⟩
theorem rdOutCount : Statement .rdOutCount := fun _ => ⟨⟨"RD_OUT_COUNT", 0x2000000000#40, 0xFFFFFFFFFF#40⟩, by decide, by decide, by decide⟩
theorem rdId : Statement .rdId := fun _ => ⟨⟨"RD_ID", 0x2800000000#40, 0xFFFFFFFFFF#40⟩, by decide, by decide, by decide⟩

theorem rdRsvd (a : BitVec 3) : Statement (.rdRsvd a) := by
  intro h
  refine ⟨⟨"RD_RSVD", 0x3000000000#40, 0xF7FFFFFFFF#40⟩, by decide, rfl, ?_⟩
  revert a; decide

theorem cfg (m : Mode) (ie : Bool) (ign : BitVec 29) : Statement (.cfg m ie ign) := by
  intro _
  refine ⟨⟨"CFG", 0x4000000000#40, 0xFF00000001#40⟩, by decide, rfl, ?_⟩
  have e := write_masked (ctrlData false m ie ign) 1#32
  rw [ctrl_low1] at e
  exact e

theorem enc (ie : Bool) (ign : BitVec 29) : Statement (.enc ie ign) := by
  intro _
  refine ⟨⟨"ENC", 0x4000000001#40, 0xFF00000003#40⟩, by decide, rfl, ?_⟩
  have e := write_masked (ctrlData true .encode ie ign) 3#32
  rw [ctrl_low2] at e
  exact e

theorem dec (ie : Bool) (ign : BitVec 29) : Statement (.dec ie ign) := by
  intro _
  refine ⟨⟨"DEC", 0x4000000003#40, 0xFF00000003#40⟩, by decide, rfl, ?_⟩
  have e := write_masked (ctrlData true .decode ie ign) 3#32
  rw [ctrl_low2] at e
  exact e

theorem wrStatus (d : Word) : Statement (.wrStatus d) :=
  fun _ => ⟨⟨"WR_STATUS", 0x4800000000#40, 0xFF00000000#40⟩, by decide, rfl, write_top 1#3 d⟩
theorem wrInLen (d : Word) : Statement (.wrInLen d) :=
  fun _ => ⟨⟨"WR_IN_LEN", 0x5000000000#40, 0xFF00000000#40⟩, by decide, rfl, write_top 2#3 d⟩
theorem wrInCount (d : Word) : Statement (.wrInCount d) :=
  fun _ => ⟨⟨"WR_IN_COUNT", 0x5800000000#40, 0xFF00000000#40⟩, by decide, rfl, write_top 3#3 d⟩
theorem wrOutCount (d : Word) : Statement (.wrOutCount d) :=
  fun _ => ⟨⟨"WR_OUT_COUNT", 0x6000000000#40, 0xFF00000000#40⟩, by decide, rfl, write_top 4#3 d⟩
theorem wrId (d : Word) : Statement (.wrId d) :=
  fun _ => ⟨⟨"WR_ID", 0x6800000000#40, 0xFF00000000#40⟩, by decide, rfl, write_top 5#3 d⟩

theorem wrRsvd (a : BitVec 3) (d : Word) : Statement (.wrRsvd a d) := by
  intro h
  refine ⟨⟨"WR_RSVD", 0x7000000000#40, 0xF700000000#40⟩, by decide, rfl, ?_⟩
  have e : makeHtw 0b01#2 a d &&& 0xFF00000000#40 &&& 0xF700000000#40 = 0x7000000000#40 := by
    have reserved : ∀ c : BitVec 3, isReservedIndex c = true →
        makeHtw 0b01#2 c 0#32 &&& 0xF700000000#40 = 0x7000000000#40 := by decide
    rw [write_top]
    exact reserved a h
  rw [BitVec.and_assoc] at e
  exact e

theorem push (b : Byte) : Statement (.push b) := by
  intro _
  refine ⟨⟨"PUSH", 0x8000000000#40, 0xFFFFFFFF00#40⟩, by decide, rfl, ?_⟩
  revert b; decide

theorem pull : Statement .pull := fun _ => ⟨⟨"PULL", 0xC000000000#40, 0xFFFFFFFFFF#40⟩, by decide, by decide, by decide⟩

end Sys2Proof.Laws.RowMatch
end

