-- ==== Sys2Proof/Laws/Rows.lean ====
section
/-! SUPPORT. The match and mask table as a whole (30_encoding.md R74): a row's fixed bits field by field, and no word on two rows. -/

namespace Sys2Proof

/-- A row's fixed bits, field by field. -/
theorem match_fields {r : OpRow} {w : Htw} (h : r.Matches w) :
    w.kind &&& r.mask.kind = r.pattern.kind ∧ w.index &&& r.mask.index = r.pattern.index ∧
    w.zbits &&& r.mask.zbits = r.pattern.zbits ∧ w.data &&& r.mask.data = r.pattern.data := by
  unfold OpRow.Matches at h
  rw [← h]
  unfold Htw.kind Htw.index Htw.zbits Htw.data
  refine ⟨?_, ?_, ?_, ?_⟩ <;>
  · apply BitVec.eq_of_getLsbD_eq
    intro j hj
    simp only [BitVec.getLsbD_and, BitVec.getLsbD_extractLsb']
    simp [hj]

/-- No two rows have one mnemonic. -/
theorem opRows_mnemonic_unique : ∀ r ∈ opRows, ∀ q ∈ opRows, r.mnemonic = q.mnemonic → r = q := by decide

/-- Two rows differ in a bit that both fix (30_encoding.md R74: the masks are disjoint in effect). -/
theorem opRows_disjoint : ∀ r ∈ opRows, ∀ q ∈ opRows, r ≠ q → r.pattern &&& q.mask ≠ q.pattern &&& r.mask := by decide

/-- No word matches two rows (30_encoding.md R74). -/
theorem opRows_unique {w : Htw} {r q : OpRow} (hr : r ∈ opRows) (hq : q ∈ opRows) (h1 : r.Matches w) (h2 : q.Matches w) : r = q := by
  by_contra hne
  apply opRows_disjoint r hr q hq hne
  rw [← h1, ← h2, BitVec.and_assoc, BitVec.and_assoc, BitVec.and_comm r.mask]

end Sys2Proof
end

