-- ==== Sys2Proof/Laws/Tables.lean ====
section
/-! SUPPORT. The character tables written out in full as 30_encoding.md R80 and R81 print them, against the formulas of the model. -/

namespace Sys2Proof.Machine

/-- ELUT, values 0 to 15 (R80). -/
def elutRow0 : List Byte :=
  [0x41#8, 0x42#8, 0x43#8, 0x44#8, 0x45#8, 0x46#8, 0x47#8, 0x48#8,
   0x49#8, 0x4A#8, 0x4B#8, 0x4C#8, 0x4D#8, 0x4E#8, 0x4F#8, 0x50#8]

/-- ELUT, values 16 to 31 (R80). -/
def elutRow1 : List Byte :=
  [0x51#8, 0x52#8, 0x53#8, 0x54#8, 0x55#8, 0x56#8, 0x57#8, 0x58#8,
   0x59#8, 0x5A#8, 0x61#8, 0x62#8, 0x63#8, 0x64#8, 0x65#8, 0x66#8]

/-- ELUT, values 32 to 47 (R80). -/
def elutRow2 : List Byte :=
  [0x67#8, 0x68#8, 0x69#8, 0x6A#8, 0x6B#8, 0x6C#8, 0x6D#8, 0x6E#8,
   0x6F#8, 0x70#8, 0x71#8, 0x72#8, 0x73#8, 0x74#8, 0x75#8, 0x76#8]

/-- ELUT, values 48 to 63 (R80). -/
def elutRow3 : List Byte :=
  [0x77#8, 0x78#8, 0x79#8, 0x7A#8, 0x30#8, 0x31#8, 0x32#8, 0x33#8,
   0x34#8, 0x35#8, 0x36#8, 0x37#8, 0x38#8, 0x39#8, 0x2B#8, 0x2F#8]

/-- ELUT as printed (R80). -/
theorem elut_as_printed : (List.range 64).map (fun i => elut (BitVec.ofNat 6 i)) = elutRow0 ++ elutRow1 ++ elutRow2 ++ elutRow3 := by
  decide

/-- DLUT, bytes 0x20 to 0x2F (R81). -/
def dlutRow2 : List CharClass :=
  [.invalid, .invalid, .invalid, .invalid, .invalid, .invalid, .invalid, .invalid,
   .invalid, .invalid, .invalid, .value 62#6, .invalid, .invalid, .invalid, .value 63#6]

/-- DLUT, bytes 0x30 to 0x3F (R81). -/
def dlutRow3 : List CharClass :=
  [.value 52#6, .value 53#6, .value 54#6, .value 55#6, .value 56#6, .value 57#6, .value 58#6, .value 59#6,
   .value 60#6, .value 61#6, .invalid, .invalid, .invalid, .pad, .invalid, .invalid]

/-- DLUT, bytes 0x40 to 0x4F (R81). -/
def dlutRow4 : List CharClass :=
  [.invalid, .value 0#6, .value 1#6, .value 2#6, .value 3#6, .value 4#6, .value 5#6, .value 6#6,
   .value 7#6, .value 8#6, .value 9#6, .value 10#6, .value 11#6, .value 12#6, .value 13#6, .value 14#6]

/-- DLUT, bytes 0x50 to 0x5F (R81). -/
def dlutRow5 : List CharClass :=
  [.value 15#6, .value 16#6, .value 17#6, .value 18#6, .value 19#6, .value 20#6, .value 21#6, .value 22#6,
   .value 23#6, .value 24#6, .value 25#6, .invalid, .invalid, .invalid, .invalid, .invalid]

/-- DLUT, bytes 0x60 to 0x6F (R81). -/
def dlutRow6 : List CharClass :=
  [.invalid, .value 26#6, .value 27#6, .value 28#6, .value 29#6, .value 30#6, .value 31#6, .value 32#6,
   .value 33#6, .value 34#6, .value 35#6, .value 36#6, .value 37#6, .value 38#6, .value 39#6, .value 40#6]

/-- DLUT, bytes 0x70 to 0x7F (R81). -/
def dlutRow7 : List CharClass :=
  [.value 41#6, .value 42#6, .value 43#6, .value 44#6, .value 45#6, .value 46#6, .value 47#6, .value 48#6,
   .value 49#6, .value 50#6, .value 51#6, .invalid, .invalid, .invalid, .invalid, .invalid]

/-- The 16 bytes with high hex digit `h`, classed. -/
def dlutLine (h : Nat) : List CharClass := (List.range 16).map fun l => dlut (BitVec.ofNat 8 (16 * h + l))

/-- DLUT as printed, the rows that hold more than INVALID (R81). -/
theorem dlut_as_printed :
    [dlutLine 2, dlutLine 3, dlutLine 4, dlutLine 5, dlutLine 6, dlutLine 7] =
      [dlutRow2, dlutRow3, dlutRow4, dlutRow5, dlutRow6, dlutRow7] := by
  decide

/-- The other ten rows of DLUT are INVALID throughout (R81). -/
theorem dlut_as_printed_invalid :
    [0, 1, 8, 9, 10, 11, 12, 13, 14, 15].all (fun h => dlutLine h == List.replicate 16 .invalid) = true := by
  decide

end Sys2Proof.Machine
end

