-- ==== Sys2Proof/Tests/Slice0.lean ====
section
/-! SUPPORT. The model's own tests: expected values are those of 95_test_vectors.md, words are written out from 30_encoding.md R70 and
R74, and each statement with hypotheses has a state and operands that meet them (the theorems named `witness_…`). -/

namespace Sys2Proof.Tests

open Sys2Proof Sys2Proof.Machine

/-! ## Helpers -/

/-- What `f` reads in the next state; none when the machine stops. -/
def look {α : Type} (r : Result) (f : State → α) : Option α :=
  match r with
  | .next s => some (f s)
  | .fault _ => none
  | .refused _ => none

/-- The clause of R77 a step was refused for. -/
def refusedFor (r : Result) : Option ReservedWord :=
  match r with
  | .refused (.reservedWord why) => some why
  | .refused (.notModelled _) => none
  | .next _ => none
  | .fault _ => none

/-- What a word decodes to; none when it is reserved. -/
def reads (w : Htw) : Option Instr := decodeTableWord 40 w.toNat

/-- The clause that makes a word reserved. -/
def reservedFor (w : Htw) : Option ReservedWord :=
  match decode w with
  | .ok _ => none
  | .error why => some why

/-- IDLE after an operation: DONE and CMDERR set (STATUS = 0x102), IN_LEN = 2. -/
def idle : State := { State.reset with done := true, cmderr := true, inLen := 2#32, inCount := 2#32, outCount := 4#32 }

/-- An Encode of `n` bytes that holds the bytes `bs`, `k` bytes taken. -/
def encoding (n k : Nat) (bs : List Byte) : State :=
  { State.reset with
    busy := true, inLen := BitVec.ofNat 32 n, inCount := BitVec.ofNat 32 k, acc := groupOf bs, cnt := Fin.ofNat 4 bs.length }

/-- A Decode of `n` bytes that holds the values `vs`, `k` bytes taken. -/
def decoding (n k : Nat) (vs : List Sextet) : State :=
  { State.reset with
    mode := .decode, busy := true, inLen := BitVec.ofNat 32 n, inCount := BitVec.ofNat 32 k, acc := quadOf vs,
    cnt := Fin.ofNat 4 vs.length }

/-- A Decode of `n` bytes that has terminated, `k` bytes taken. -/
def terminated (n k : Nat) : State := { decoding n k [] with term := true }

/-- An operation with `out` still to deliver, `k` of its `n` bytes taken. -/
def draining (n k : Nat) (out : List Byte) : State :=
  { encoding n k [] with obuf := out, outCount := BitVec.ofNat 32 (4 - out.length), anyout := true }

/-- A clock cycle in which the host drives nothing. -/
def quiet : Cycle :=
  { rst := false, regSel := false, regWe := false, regAddr := 0#5, regWdata := 0#32, inValid := false, inData := 0#8, outReady := false }

/-- `s` with the host about to drive one cycle. -/
def drives (s : State) (c : Cycle) : State := { s with inputs := [.cycle c] }

/-! ## WellFormed: the one check, and an ill-formed term of each row it refuses -/

theorem test_wf_rdRsvd_refuses_index_5 : ¬ (Instr.rdRsvd 5#3).WellFormed := by decide
theorem test_wf_wrRsvd_refuses_index_0 : ¬ (Instr.wrRsvd 0#3 1#32).WellFormed := by decide
theorem test_wf_reserved_indexes : (Instr.rdRsvd 6#3).WellFormed ∧ (Instr.wrRsvd 7#3 1#32).WellFormed := by decide

/-! ## Decode: one word of each row, K AAA ZZZ D written out (R70, R74; 95 L2-R, L2-H) -/

theorem test_decode_rdCtrl : reads (0b00#2 ++ 0b000#3 ++ 0b000#3 ++ 0x00000000#32) = some .rdCtrl := by decide
theorem test_decode_rdStatus : reads (0b00#2 ++ 0b001#3 ++ 0b000#3 ++ 0x00000000#32) = some .rdStatus := by decide
theorem test_decode_rdInLen : reads (0b00#2 ++ 0b010#3 ++ 0b000#3 ++ 0x00000000#32) = some .rdInLen := by decide
theorem test_decode_rdInCount : reads (0b00#2 ++ 0b011#3 ++ 0b000#3 ++ 0x00000000#32) = some .rdInCount := by decide
theorem test_decode_rdOutCount : reads (0b00#2 ++ 0b100#3 ++ 0b000#3 ++ 0x00000000#32) = some .rdOutCount := by decide
theorem test_decode_rdId : reads (0b00#2 ++ 0b101#3 ++ 0b000#3 ++ 0x00000000#32) = some .rdId := by decide
theorem test_decode_rdRsvd : reads (0b00#2 ++ 0b111#3 ++ 0b000#3 ++ 0x00000000#32) = some (.rdRsvd 7#3) := by decide
theorem test_decode_cfg : reads (0b01#2 ++ 0b000#3 ++ 0b000#3 ++ 0x00000006#32) = some (.cfg .decode true 0#29) := by decide
theorem test_decode_enc : reads (0b01#2 ++ 0b000#3 ++ 0b000#3 ++ 0x00000005#32) = some (.enc true 0#29) := by decide
theorem test_decode_dec : reads (0b01#2 ++ 0b000#3 ++ 0b000#3 ++ 0x0000000B#32) = some (.dec false 1#29) := by decide
theorem test_decode_wrStatus : reads (0b01#2 ++ 0b001#3 ++ 0b000#3 ++ 0x00000102#32) = some (.wrStatus 0x102#32) := by decide
theorem test_decode_wrInLen : reads (0b01#2 ++ 0b010#3 ++ 0b000#3 ++ 0xFFFFFFFF#32) = some (.wrInLen 0xFFFFFFFF#32) := by decide
theorem test_decode_wrInCount : reads (0b01#2 ++ 0b011#3 ++ 0b000#3 ++ 0x00000005#32) = some (.wrInCount 5#32) := by decide
theorem test_decode_wrOutCount : reads (0b01#2 ++ 0b100#3 ++ 0b000#3 ++ 0x00000007#32) = some (.wrOutCount 7#32) := by decide
theorem test_decode_wrId : reads (0b01#2 ++ 0b101#3 ++ 0b000#3 ++ 0x00000000#32) = some (.wrId 0#32) := by decide
theorem test_decode_wrRsvd : reads (0b01#2 ++ 0b110#3 ++ 0b000#3 ++ 0x00000001#32) = some (.wrRsvd 6#3 1#32) := by decide
theorem test_decode_push : reads (0b10#2 ++ 0b000#3 ++ 0b000#3 ++ 0x000000FF#32) = some (.push 0xFF#8) := by decide
theorem test_decode_pull : reads (0b11#2 ++ 0b000#3 ++ 0b000#3 ++ 0x00000000#32) = some .pull := by decide

/-- The refused words of 95 L2-H, each for its clause of R77. -/
theorem test_decode_reserved :
    [0x0000000001#40, 0x0100000000#40, 0x4700000000#40, 0x8000000141#40, 0x8800000041#40, 0xC000000001#40, 0xC800000000#40].map
        reservedFor =
      [some .readWithData, some .zNonZero, some .zNonZero, some .pushWithHighData, some .pushWithIndex, some .pullWithData,
        some .pullWithIndex] := by decide

/-! ## The step fetches the host's next word -/

theorem test_step_runs_fetched_word : look (step (State.reset.withFetchWord 40 0x5000000002)) (·.inLen) = some 2#32 := by decide
theorem test_step_refuses_reserved_word :
    refusedFor (step (State.reset.withFetchWord 40 0x0100000000)) = some .zNonZero := by decide
/-- 95 S-1: a PUSH while IDLE is no transfer. -/
theorem test_step_waits :
    look (step (State.reset.withFetchWord 40 0x8000000041)) (fun t => (t.inCount, t.inputs)) =
      some (0#32, [.htw 0x8000000041#40]) := by decide
/-- 95 S-8: the write goes first, the PULL then completes. -/
theorem test_step_write_before_pull :
    look (step (drives (draining 2 2 [0x3D#8]) { quiet with
      regSel := true, regWe := true, regAddr := 4#5, regWdata := 2#32, outReady := true }))
      (fun t => (t.statusWord, t.outResp)) = some (0x002#32, some 0x3D#8) := by decide
/-- 95 S-9: the read returns the count from before the PULL. -/
theorem test_step_read_before_pull :
    look (step (drives (draining 2 2 [0x3D#8]) { quiet with regSel := true, regAddr := 16#5, outReady := true }))
      (fun t => (t.regResp, t.outCount)) = some (some 3#32, 4#32) := by decide
/-- 95 S-7: reset during an Encode. -/
theorem test_step_reset : look (step (drives (encoding 2 1 [0x48#8]) { quiet with rst := true, inValid := true })) id =
    some { State.reset with tick := 1 } := by decide

/-! ## Register transactions (95 L2-R) -/

theorem test_rdCtrl : look (exec .rdCtrl { decoding 4 0 [] with ie := true }) (·.regResp) = some (some 0x6#32) := by decide
theorem test_rdStatus :
    look (exec .rdStatus { State.reset with done := true, noout := true, inv := true }) (·.regResp) = some (some 0xE#32) := by decide
theorem test_rdStatus_high :
    look (exec .rdStatus { State.reset with cmderr := true, lone := true, tail := true, busy := true }) (·.regResp) =
      some (some 0x131#32) := by decide
theorem test_rdInLen : look (exec .rdInLen idle) (·.regResp) = some (some 2#32) := by decide
theorem test_rdInCount : look (exec .rdInCount (encoding 3 1 [0#8])) (·.regResp) = some (some 1#32) := by decide
theorem test_rdOutCount : look (exec .rdOutCount (draining 2 2 [0x3D#8])) (·.regResp) = some (some 3#32) := by decide
theorem test_rdId : look (exec .rdId idle) (·.regResp) = some (some 0x42363401#32) := by decide
theorem test_rdRsvd : look (exec (.rdRsvd 7#3) idle) (·.regResp) = some (some 0#32) := by decide
/-- R-9. -/
theorem test_cfg : look (exec (.cfg .decode true 0#29) State.reset) (fun t => (t.ctrlWord, t.statusWord, t.irq)) =
    some (6#32, 0#32, false) := by decide
/-- R-22. -/
theorem test_cfg_busy : look (exec (.cfg .decode true 0#29) (encoding 3 1 [0#8])) (fun t => (t.ie, t.mode, t.cmderr)) =
    some (true, .encode, false) := by decide
/-- R-24. -/
theorem test_enc : look (exec (.enc false 0#29) { idle with ie := true, cmderr := false })
    (fun t => (t.statusWord, t.inCount, t.outCount, t.irq)) = some (0x001#32, 0#32, 0#32, false) := by decide
/-- P4: an empty Encode with IE. -/
theorem test_enc_empty : look (exec (.enc true 0#29) State.reset) (fun t => (t.ctrlWord, t.statusWord, t.irq)) =
    some (4#32, 0x002#32, true) := by decide
/-- R-11. -/
theorem test_dec_empty : look (exec (.dec true 0x1FFFFFFF#29) State.reset) (fun t => (t.ctrlWord, t.statusWord, t.outCount)) =
    some (6#32, 0x002#32, 0#32) := by decide
/-- R-21. -/
theorem test_dec_busy : look (exec (.dec false 0#29) (encoding 3 1 [0x4D#8])) id =
    some { encoding 3 1 [0x4D#8] with cmderr := true } := by decide
/-- R-13. -/
theorem test_wrStatus_done : look (exec (.wrStatus 0x2#32) idle) (·.statusWord) = some 0x100#32 := by decide
/-- R-12. -/
theorem test_wrStatus_all : look (exec (.wrStatus 0xFFFFFFFF#32) { State.reset with done := true, noout := true }) (·.statusWord) =
    some 0x004#32 := by decide
/-- R-15. -/
theorem test_wrInLen : look (exec (.wrInLen 0xFFFFFFFF#32) idle) (·.inLen) = some 0xFFFFFFFF#32 := by decide
/-- R-16. -/
theorem test_wrInLen_busy : look (exec (.wrInLen 5#32) (encoding 3 0 [])) (fun t => (t.inLen, t.cmderr)) = some (3#32, true) := by decide
/-- R-17 to R-20. -/
theorem test_wrInCount : look (exec (.wrInCount 5#32) idle) id = some idle := by decide
theorem test_wrOutCount : look (exec (.wrOutCount 7#32) idle) id = some idle := by decide
theorem test_wrId : look (exec (.wrId 0#32) idle) id = some idle := by decide
theorem test_wrRsvd : look (exec (.wrRsvd 6#3 1#32) idle) id = some idle := by decide

/-! ## Stream transfers (95 L2-E, L2-D, L2-S) -/

/-- The third byte of "Man": 54 57 46 75. -/
theorem test_push_encode : look (exec (.push 0x6E#8) (encoding 6 2 [0x4D#8, 0x61#8])) (fun t => (t.acc, t.cnt, t.obuf)) =
    some (0#24, 0, [0x54#8, 0x57#8, 0x46#8, 0x75#8]) := by decide
/-- The `=` of "SGk=": ACC = 0x486900 gives 48 69. -/
theorem test_push_decode : look (exec (.push 0x3D#8) { decoding 5 3 [] with acc := 0x486900#24, cnt := 3 })
    (fun t => (t.acc, t.cnt, t.term, t.obuf)) = some (0#24, 0, false, [0x48#8, 0x69#8]) := by decide
/-- P1, the fourth PULL. -/
theorem test_pull_completes : look (exec .pull (draining 2 2 [0x3D#8])) (fun t => (t.outResp, t.statusWord, t.outCount)) =
    some (some 0x3D#8, 0x002#32, 4#32) := by decide
/-- P7, the first PULL. -/
theorem test_pull : look (exec .pull (draining 6 3 [0x5A#8, 0x6D#8, 0x39#8, 0x76#8])) (fun t => (t.outResp, t.statusWord, t.obuf)) =
    some (some 0x5A#8, 0x001#32, [0x6D#8, 0x39#8, 0x76#8]) := by decide

/-! ## The codec on whole byte sequences (95 L2-E, L2-D) -/

/-- "Hi" gives "SGk=", FB EF gives "++8=", 14 FB 9C 03 gives "FPucAw==". -/
theorem test_encodeText : [[0x48#8, 0x69#8], [0xFB#8, 0xEF#8], [0x14#8, 0xFB#8, 0x9C#8, 0x03#8]].map encodeText =
    [[0x53#8, 0x47#8, 0x6B#8, 0x3D#8], [0x2B#8, 0x2B#8, 0x38#8, 0x3D#8],
      [0x46#8, 0x50#8, 0x75#8, 0x63#8, 0x41#8, 0x77#8, 0x3D#8, 0x3D#8]] := by decide
/-- "SR==" gives 49, "SG k=" gives 48 69, "S=AAAA" gives 00 00 00, "SQ==SG" gives 49. -/
theorem test_decodeText :
    [[0x53#8, 0x52#8, 0x3D#8, 0x3D#8], [0x53#8, 0x47#8, 0x20#8, 0x6B#8, 0x3D#8], [0x53#8, 0x3D#8, 0x41#8, 0x41#8, 0x41#8, 0x41#8],
      [0x53#8, 0x51#8, 0x3D#8, 0x3D#8, 0x53#8, 0x47#8]].map decodeText =
      [[0x49#8], [0x48#8, 0x69#8], [0#8, 0#8, 0#8], [0x49#8]] := by decide
/-- "S" sets LONE, "==" sets TAIL, "!" sets INV, "SQ==!" sets TAIL only, LF sets nothing. -/
theorem test_flagsFrom :
    [[0x53#8], [0x3D#8, 0x3D#8], [0x21#8], [0x53#8, 0x51#8, 0x3D#8, 0x3D#8, 0x21#8], [0x0A#8]].map (flagsFrom []) =
      [⟨false, false, true⟩, ⟨false, true, false⟩, ⟨true, false, false⟩, ⟨false, true, false⟩, ⟨false, false, false⟩] := by decide

/-! ## Witnesses: states and operands that meet the hypotheses of the statements -/

theorem witness_DecodeOfEncodeIsTheInstruction : (Instr.wrRsvd 7#3 0xFFFFFFFF#32).WellFormed := by decide
theorem witness_EncodeOfDecodeIsTheWord : decode 0x40FFFFFFF8#40 = .ok (.cfg .encode false 0x1FFFFFFF#29) := by rfl
theorem witness_EveryWordHasOneRowOrIsReserved :
    decode 0x3800000000#40 = .ok (.rdRsvd 7#3) ∧ (⟨"RD_RSVD", 0x3000000000#40, 0xF7FFFFFFFF#40⟩ : OpRow) ∈ opRows ∧
      decode 0x0000000001#40 = .error .readWithData := ⟨rfl, by decide, rfl⟩
/-- Each clause of R77 at the edge of its range: the lowest and the highest bit that D of a PUSH must not hold, and the highest it may. -/
theorem witness_ReservedWordsAreExactlyTheMalformedOnes :
    [0x8000000100#40, 0x8080000000#40, 0x80000000FF#40, 0x0080000000#40, 0xC080000000#40, 0xC800000000#40, 0x0400000000#40].map
        reservedFor =
      [some .pushWithHighData, some .pushWithHighData, none, some .readWithData, some .pullWithData, some .pullWithIndex,
        some .zNonZero] := by decide
theorem witness_ReservedWordsAreExactlyTheMalformedOnes_step :
    (idle.withFetchWord 40 0xC800000000).inputs = .htw 0xC800000000#40 :: [] ∧
      decode 0xC800000000#40 = .error .pullWithIndex := ⟨by decide, rfl⟩
theorem witness_CtrlWritesDecodeByStartAndMode :
    (0xFFFFFFF8#32).getLsbD 0 = false ∧ ((0x5#32).getLsbD 0 = true ∧ (0x5#32).getLsbD 1 = false) ∧
      ((0xFFFFFFFF#32).getLsbD 0 = true ∧ (0xFFFFFFFF#32).getLsbD 1 = true) := by decide
/-- Both ends of each range of R80. -/
theorem witness_CharacterTablesAreInverse :
    (25#6).toNat ≤ 25 ∧ (26 ≤ (26#6).toNat ∧ (51#6).toNat ≤ 51) ∧ (52 ≤ (52#6).toNat ∧ (61#6).toNat ≤ 61) ∧ (62#6).toNat = 62 ∧
      (63#6).toNat = 63 ∧ isWs 0x09#8 = true ∧ isWs 0x0D#8 = true := by decide
theorem witness_BusAddressesSelectTheWord : (0 < 4 ∧ 3 < 4) ∧ Config.base + 32 ≤ Config.base + 32 := ⟨by decide, le_refl _⟩
/-- Offset 0x1F, the last of the register space: the low bits are ignored. -/
theorem witness_RegisterReadsChangeNoState :
    let c : Cycle := { quiet with regSel := true, regAddr := 0x1F#5 }
    c.rst = false ∧ c.regSel = true ∧ c.regWe = false ∧ c.inValid = false ∧ c.outReady = false := by decide
theorem witness_ReadStatusReturnsTheFlags :
    BusyHidesDone (encoding 3 1 [0x4D#8]) ∧ (encoding 3 1 [0x4D#8]).busy = true := by decide
theorem witness_CfgConfiguresWithoutStarting :
    (0x6#32).getLsbD 0 = false ∧ ∃ t, exec (.cfg .decode true 0#29) idle = .next t := ⟨by decide, ⟨_, rfl⟩⟩
theorem witness_WriteStatusClearsDoneAndCmderr :
    BusyHidesDone (encoding 3 1 [0x4D#8]) ∧ (encoding 3 1 [0x4D#8]).busy = true ∧ (0x2#32).getLsbD 8 = false ∧
      (0x2#32).getLsbD 1 = true ∧ ∃ t, exec (.wrStatus 0x2#32) idle = .next t :=
  ⟨by decide, by decide, by decide, by decide, ⟨_, rfl⟩⟩
theorem witness_StartWhileBusyOnlySetsCmderr : (encoding 3 1 [0x4D#8]).busy = true := by decide
/-- Both outcomes of Begin: IN_LEN = 0 and IN_LEN ≠ 0. -/
theorem witness_EncBeginsAnEncode :
    ((0x5#32).getLsbD 0 = true ∧ (0x5#32).getLsbD 1 = false) ∧ (encoding 3 1 [0x4D#8]).busy = true ∧
    (idle.busy = false ∧ idle.obuf = [] ∧ idle.inLen ≠ 0#32) ∧
      ({ idle with inLen := 0#32 } : State).busy = false ∧ ({ idle with inLen := 0#32 } : State).obuf = [] := by decide
theorem witness_DecBeginsADecode :
    ((0x7#32).getLsbD 0 = true ∧ (0x7#32).getLsbD 1 = true) ∧ (encoding 3 1 [0x4D#8]).busy = true ∧
    (idle.busy = false ∧ idle.obuf = [] ∧ idle.inLen ≠ 0#32) ∧
      ({ idle with inLen := 0#32 } : State).busy = false ∧ ({ idle with inLen := 0#32 } : State).obuf = [] := by decide
theorem witness_WriteInLenSetsTheLength : idle.busy = false ∧ (encoding 3 0 []).busy = true := by decide
theorem witness_RegisterWritesAreIdempotent :
    (∃ t, exec (writeInstr 0#3 6#32) idle = .next t) ∧ (6#32).getLsbD 0 = false ∧ ∃ t, exec (writeInstr 1#3 3#32) idle = .next t :=
  ⟨⟨_, rfl⟩, by decide, ⟨_, rfl⟩⟩
/-- Each way a transfer is not enabled: IDLE, all input taken, output pending; and no output. -/
theorem witness_TransfersNotEnabledWait :
    idle.busy = false ∧ (draining 2 2 [0x3D#8]).inCount = (draining 2 2 [0x3D#8]).inLen ∧
      (draining 6 3 [0x76#8]).obuf ≠ [] ∧ idle.obuf = [] ∧
      ({ idle with inputs := [.htw 0x8000000041#40] } : State).inputs = .htw (0x80000000#32 ++ 0x41#8) :: [] ∧
      ({ idle with inputs := [.htw 0xC000000000#40] } : State).inputs = .htw 0xC000000000#40 :: [] := by decide
/-- A PULL that goes on (bytes left; input left) and the one that completes. -/
theorem witness_PullDeliversTheHead :
    ((draining 2 2 [0x6B#8, 0x3D#8]).obuf = 0x6B#8 :: [0x3D#8]) ∧
      ((draining 6 3 [0x76#8]).obuf = 0x76#8 :: [] ∧ (draining 6 3 [0x76#8]).inCount ≠ (draining 6 3 [0x76#8]).inLen) ∧
      ((draining 2 2 [0x3D#8]).obuf = 0x3D#8 :: [] ∧ (draining 2 2 [0x3D#8]).busy = true ∧
        (draining 2 2 [0x3D#8]).inCount = (draining 2 2 [0x3D#8]).inLen) := by decide
/-- What EncodePushTakesOneByte assumes, of an Encode of 6 bytes. -/
abbrev TakesByte (s : State) (bs : List Byte) : Prop :=
  s.busy = true ∧ s.mode = .encode ∧ s.obuf = [] ∧ HoldsBytes s bs ∧ s.inCount ≠ s.inLen ∧ s.inCount + 1#32 ≠ s.inLen
/-- The first, the second and the third byte of a group. -/
theorem witness_EncodePushTakesOneByte :
    TakesByte (encoding 6 0 []) [] ∧ TakesByte (encoding 6 1 [0x4D#8]) [0x4D#8] ∧
      TakesByte (encoding 6 2 [0x4D#8, 0x61#8]) [0x4D#8, 0x61#8] := by decide
/-- What LastEncodePushPadsTheQuad assumes. -/
abbrev TakesLastByte (s : State) (bs : List Byte) : Prop :=
  s.busy = true ∧ s.mode = .encode ∧ s.obuf = [] ∧ HoldsBytes s bs ∧ s.inCount ≠ s.inLen ∧ s.inCount + 1#32 = s.inLen
/-- One, two and three bytes in the last group. -/
theorem witness_LastEncodePushPadsTheQuad :
    TakesLastByte (encoding 1 0 []) [] ∧ TakesLastByte (encoding 2 1 [0x48#8]) [0x48#8] ∧
      TakesLastByte (encoding 3 2 [0x4D#8, 0x61#8]) [0x4D#8, 0x61#8] := by decide
/-- What the statements about a Decode byte that is not the last assume. -/
abbrev TakesChar (s : State) (vs : List Sextet) : Prop :=
  s.busy = true ∧ s.mode = .decode ∧ s.obuf = [] ∧ s.term = false ∧ HoldsValues s vs ∧ s.inCount ≠ s.inLen ∧
    s.inCount + 1#32 ≠ s.inLen
/-- The first, the third and the fourth value of a quad; VALUE bytes at the ends of the alphabet. -/
theorem witness_DecodePushAddsAValue :
    TakesChar (decoding 8 0 []) [] ∧ TakesChar (decoding 8 2 [18#6, 6#6]) [18#6, 6#6] ∧
      TakesChar (decoding 8 3 [18#6, 6#6, 36#6]) [18#6, 6#6, 36#6] ∧ dlut 0x41#8 = .value 0#6 ∧ dlut 0x2F#8 = .value 63#6 := by decide
/-- An empty quad, one value, three values. -/
theorem witness_DecodePadClosesOrTerminates :
    TakesChar (decoding 8 4 []) [] ∧ TakesChar (decoding 8 1 [18#6]) [18#6] ∧
      TakesChar (decoding 8 3 [18#6, 6#6, 36#6]) [18#6, 6#6, 36#6] := by decide
theorem witness_DecodeSkipsAndDiscards :
    TakesChar (decoding 8 1 [18#6]) [18#6] ∧ dlut 0x20#8 = .invalid ∧ dlut 0xFF#8 = .invalid ∧
      (terminated 8 4).term = true ∧ (terminated 8 4).inCount ≠ (terminated 8 4).inLen ∧
      (terminated 8 4).inCount + 1#32 ≠ (terminated 8 4).inLen := by decide
/-- What LastDecodePushEndsTheInput assumes. -/
abbrev TakesLastChar (s : State) (vs : List Sextet) : Prop :=
  s.busy = true ∧ s.mode = .decode ∧ s.obuf = [] ∧ HoldsValues s vs ∧ (s.term = true → vs = []) ∧ s.inCount < s.inLen ∧
    s.inCount + 1#32 = s.inLen
/-- One byte that completes the operation (a lone value), one that leaves output, one after termination. -/
theorem witness_LastDecodePushEndsTheInput :
    (TakesLastChar (decoding 1 0 []) [] ∧ decodeFrom [] [0x53#8] = []) ∧
      (TakesLastChar (decoding 4 3 [18#6, 6#6, 36#6]) [18#6, 6#6, 36#6] ∧
        decodeFrom [18#6, 6#6, 36#6] [0x3D#8] = [0x48#8, 0x69#8]) ∧
      TakesLastChar (terminated 8 7) [] := by decide
/-- Each clause: an Encode, a Decode after termination, and a PUSH that changes DONE and NOOUT. -/
theorem witness_PushFrame :
    (∃ t, exec (.push 0x48#8) (encoding 2 0 []) = .next t) ∧ (encoding 2 0 []).mode = .encode ∧
      (∃ t, exec (.push 0x53#8) (terminated 8 4) = .next t) ∧ (terminated 8 4).mode = .decode ∧ (terminated 8 4).term = true ∧
      (∃ t, exec (.push 0x53#8) (decoding 1 0 []) = .next t ∧ t.done ≠ (decoding 1 0 []).done ∧ t.noout ≠ (decoding 1 0 []).noout) :=
  ⟨⟨_, rfl⟩, by decide, ⟨_, rfl⟩, by decide, by decide, ⟨_, rfl, by decide⟩⟩
theorem witness_StepPerformsTheDecodedWord :
    (Instr.push 0x48#8).WellFormed ∧
      ({ encoding 2 0 [] with inputs := [.htw 0x8000000048#40] } : State).inputs = .htw (encode (.push 0x48#8)) :: [] ∧
      ({ encoding 2 0 [] with inputs := [.htw 0x8000000048#40] } : State).inReady = true ∧
      ({ draining 2 2 [0x3D#8] with inputs := [.htw 0xC000000000#40] } : State).inputs = .htw (encode .pull) :: [] ∧
      ({ draining 2 2 [0x3D#8] with inputs := [.htw 0xC000000000#40] } : State).outValid = true := by decide
/-- Both sides: a step, and a word on no row. -/
theorem witness_OnlyReservedWordsAreRefused :
    (∃ t, step (State.reset.withFetchWord 40 0x2800000000) = .next t) ∧
      ∀ r ∈ opRows, ¬ r.Matches 0x0100000000#40 := ⟨⟨_, rfl⟩, by decide⟩
theorem witness_ResetCycleRestoresTheResetState :
    (drives (encoding 2 1 [0x48#8]) { quiet with rst := true }).inputs = .cycle { quiet with rst := true } :: [] ∧
      ({ quiet with rst := true } : Cycle).rst = true := by decide
/-- The clauses: no access, a write, a read; a PUSH, a PULL, no transfer. -/
theorem witness_RegisterAccessPrecedesTheTransfer :
    (drives (encoding 2 0 []) { quiet with inValid := true }).inReady = true ∧
      (drives (draining 2 2 [0x3D#8]) { quiet with regSel := true, regWe := true, outReady := true }).outValid = true ∧
      (drives idle { quiet with regSel := true, inValid := true, outReady := true }).inReady = false ∧
      (drives idle { quiet with regSel := true, inValid := true, outReady := true }).outValid = false ∧
      (drives idle quiet).inputs = .cycle quiet :: [] ∧ quiet.rst = false := by decide
/-- States of both modes in the middle of an operation meet the invariant, and a step takes them on. -/
theorem witness_EveryStepKeepsTheInvariant :
    (Invariant (encoding 6 2 [0x4D#8, 0x61#8]) ∧
        ∃ t, step ((encoding 6 2 [0x4D#8, 0x61#8]).withFetchWord 40 0x800000006E) = .next t) ∧
      Invariant ((encoding 6 2 [0x4D#8, 0x61#8]).withFetchWord 40 0x800000006E) ∧
      Invariant (decoding 8 3 [18#6, 6#6, 36#6]) ∧ Invariant (terminated 8 4) ∧ Invariant (draining 2 2 [0x3D#8]) :=
  ⟨⟨by decide, ⟨_, rfl⟩⟩, by decide, by decide, by decide, by decide⟩
/-- SETLEN 2, ENC: a reachable state with an operation running. -/
theorem witness_Reachable : ∃ s, Reachable s ∧ s.busy = true :=
  ⟨_, .step _ _ (.step _ _ (.drive _ [.htw 0x5000000002#40, .htw 0x4000000001#40] .reset) rfl) rfl, by decide⟩
theorem witness_ReachableStatesMeetTheStateRules : ∃ s, Reachable s := ⟨_, .reset⟩
theorem witness_ARunningOperationCanProgress : ∃ s, Reachable s ∧ s.busy = true := witness_Reachable
/-- Four bytes at once, in a group that is closed. -/
theorem witness_OutputBufferNeverOverflows :
    Invariant (encoding 6 2 [0x4D#8, 0x61#8]) ∧ (encoding 6 2 [0x4D#8, 0x61#8]).inReady = true ∧
      ∃ t, exec (.push 0x6E#8) (encoding 6 2 [0x4D#8, 0x61#8]) = .next t ∧ t.obuf ≠ [] :=
  ⟨by decide, by decide, ⟨_, rfl, by decide⟩⟩
/-- IDLE to BUSY, BUSY to IDLE by a PULL, BUSY to IDLE by a PUSH. -/
theorem witness_OnlyStartAndCompletionMoveTheFsm :
    (∃ t, exec (.enc false 0#29) idle = .next t ∧ idle.busy = false ∧ t.busy = true) ∧
      (∃ t, exec .pull (draining 2 2 [0x3D#8]) = .next t ∧ (draining 2 2 [0x3D#8]).busy = true ∧ t.busy = false) ∧
      (∃ t, exec (.push 0x53#8) (decoding 1 0 []) = .next t ∧ (decoding 1 0 []).busy = true ∧ t.busy = false) :=
  ⟨⟨_, rfl, by decide⟩, ⟨_, rfl, by decide⟩, ⟨_, rfl, by decide⟩⟩
/-- IN_LEN by a WR_IN_LEN; IN_COUNT by a PUSH; OUT_COUNT by a PULL. -/
theorem witness_CountersChangeOnlyByTheirEvents :
    (∃ t, exec (.wrInLen 5#32) idle = .next t ∧ t.inLen ≠ idle.inLen) ∧
      (∃ t, exec (.push 0x48#8) (encoding 2 0 []) = .next t ∧ (encoding 2 0 []).busy = true ∧ t.inCount ≠ (encoding 2 0 []).inCount) ∧
      (∃ t, exec .pull (draining 2 2 [0x6B#8, 0x3D#8]) = .next t ∧ (draining 2 2 [0x6B#8, 0x3D#8]).busy = true ∧
        t.outCount ≠ (draining 2 2 [0x6B#8, 0x3D#8]).outCount) :=
  ⟨⟨_, rfl, by decide⟩, ⟨_, rfl, by decide⟩, ⟨_, rfl, by decide⟩⟩
/-- An idle block: the counters by a START; MODE by a CFG and by a DEC. -/
theorem witness_CountersChangeOnlyByTheirEvents_idle :
    Invariant idle ∧ idle.busy = false ∧
      (∃ t, exec (.enc false 0#29) idle = .next t ∧ t.inCount ≠ idle.inCount ∧ t.outCount ≠ idle.outCount) ∧
      (∃ t, exec (.cfg .decode false 0#29) idle = .next t ∧ t.mode ≠ idle.mode) ∧
      (∃ t, exec (.dec false 0#29) idle = .next t ∧ t.mode ≠ idle.mode) :=
  ⟨by decide, by decide, ⟨_, rfl, by decide⟩, ⟨_, rfl, by decide⟩, ⟨_, rfl, by decide⟩⟩
theorem witness_CmderrIsStickyAndOnlyForBusyCommands :
    (∃ t, exec (.dec false 0#29) (encoding 3 1 [0x4D#8]) = .next t ∧ (encoding 3 1 [0x4D#8]).cmderr = false ∧ t.cmderr = true) ∧
      (∃ t, exec (.wrInLen 5#32) (encoding 3 0 []) = .next t ∧ (encoding 3 0 []).cmderr = false ∧ t.cmderr = true) ∧
      (∃ t, exec (.wrStatus 0x100#32) idle = .next t ∧ idle.cmderr = true ∧ t.cmderr = false) :=
  ⟨⟨_, rfl, by decide⟩, ⟨_, rfl, by decide⟩, ⟨_, rfl, by decide⟩⟩
/-- Steps on words: a START, the PULL that completes, a SETLEN, a START turned away, a CLRERR; and one on a cycle that is no reset. -/
theorem witness_StepsMoveTheOperationOnlyByEventsOrReset :
    (∃ t, step (idle.withFetchWord 40 0x4000000001) = .next t ∧ idle.busy = false ∧ t.busy = true) ∧
      (∃ t, step ((draining 2 2 [0x3D#8]).withFetchWord 40 0xC000000000) = .next t ∧ t.busy = false) ∧
      (∃ t, step (idle.withFetchWord 40 0x5000000005) = .next t ∧ t.inLen ≠ idle.inLen) ∧
      (∃ t, step ((encoding 3 1 [0x4D#8]).withFetchWord 40 0x4000000003) = .next t ∧ t.cmderr = true) ∧
      (∃ t, step (idle.withFetchWord 40 0x4800000100) = .next t ∧ idle.cmderr = true ∧ t.cmderr = false) ∧
      (∃ t, step (drives (decoding 1 0 []) { quiet with inValid := true, inData := 0x53#8 }) = .next t ∧ t.busy = false) :=
  ⟨⟨_, rfl, by decide⟩, ⟨_, rfl, by decide⟩, ⟨_, rfl, by decide⟩, ⟨_, rfl, by decide⟩, ⟨_, rfl, by decide⟩, ⟨_, rfl, by decide⟩⟩
/-- Steps with nothing driven, with a byte offered and with a byte taken; and of an idle block, a START in a word and a CFG in a cycle. -/
theorem witness_StepsMoveTheOperationOnlyByEventsOrReset_transfers :
    idle.inputs = [] ∧
      (∃ t, step (drives (encoding 2 0 []) { quiet with inValid := true, inData := 0x48#8 }) = .next t ∧
        (encoding 2 0 []).busy = true ∧ t.inCount ≠ (encoding 2 0 []).inCount) ∧
      (∃ t, step ((draining 2 2 [0x6B#8, 0x3D#8]).withFetchWord 40 0xC000000000) = .next t ∧
        (draining 2 2 [0x6B#8, 0x3D#8]).busy = true ∧ t.outCount ≠ (draining 2 2 [0x6B#8, 0x3D#8]).outCount) ∧
      Invariant (idle.withFetchWord 40 0x4000000001) ∧
      (∃ t, step (idle.withFetchWord 40 0x4000000001) = .next t ∧ t.inCount ≠ idle.inCount) ∧
      (∃ t, step (drives idle { quiet with regSel := true, regWe := true, regWdata := 2#32 }) = .next t ∧ t.mode ≠ idle.mode) :=
  ⟨by decide, ⟨_, rfl, by decide⟩, ⟨_, rfl, by decide⟩, by decide, ⟨_, rfl, by decide⟩, ⟨_, rfl, by decide⟩⟩
theorem witness_NooutOnlyAfterAnEmptyDecode :
    Invariant (decoding 1 0 []) ∧
      ∃ t, exec (.push 0x53#8) (decoding 1 0 []) = .next t ∧ (decoding 1 0 []).noout = false ∧ t.noout = true :=
  ⟨by decide, ⟨_, rfl, by decide⟩⟩
/-- irq rises by a PULL that completes, and by a CFG that sets IE while DONE = 1 (95 R-23). -/
theorem witness_IrqRisesOnlyByCompletionOrEnable :
    (Invariant { draining 2 2 [0x3D#8] with ie := true } ∧
        ∃ t, exec .pull { draining 2 2 [0x3D#8] with ie := true } = .next t ∧
          ({ draining 2 2 [0x3D#8] with ie := true } : State).irq = false ∧ t.irq = true) ∧
      Invariant idle ∧ ∃ t, exec (.cfg .encode true 0#29) idle = .next t ∧ idle.irq = false ∧ t.irq = true :=
  ⟨⟨by decide, ⟨_, rfl, by decide⟩⟩, by decide, ⟨_, rfl, by decide⟩⟩
theorem witness_HandshakePortsFollowTheState :
    (draining 2 2 [0x3D#8]).outValid = true ∧ (Instr.rdStatus ≠ .pull) ∧ ∃ t, exec .rdStatus (draining 2 2 [0x3D#8]) = .next t :=
  ⟨by decide, by decide, ⟨_, rfl⟩⟩
/-- "Hi" and the empty input, on an idle block. -/
theorem witness_EncodeOperationDeliversTheText :
    idle.busy = false ∧ Invariant idle ∧ [0x48#8, 0x69#8].length < 2 ^ 32 ∧ ([] : List Byte).length < 2 ^ 32 := by decide
/-- "SGk=" and the empty input, on an idle block. -/
theorem witness_DecodeOperationDeliversTheBytes :
    idle.busy = false ∧ Invariant idle ∧ [0x53#8, 0x47#8, 0x6B#8, 0x3D#8].length < 2 ^ 32 ∧ ([] : List Byte).length < 2 ^ 32 := by
  decide
/-- Input lengths of every remainder. -/
theorem witness_EncodeLengthAndPadding : [0x66#8].length % 3 = 1 ∧ [0x66#8, 0x6F#8].length % 3 = 2 ∧
    [0x66#8, 0x6F#8, 0x6F#8].length % 3 = 0 ∧ (0x5A#8) ∈ encodeText [0x66#8] := by decide
theorem witness_DecodeOfEncodeDeliversTheInput :
    idle.busy = false ∧ Invariant idle ∧ 4 * ((([0x48#8, 0x69#8] : List Byte).length + 2) / 3) < 2 ^ 32 := by decide
/-- Removing every space. -/
theorem witness_SkippedBytesDoNotChangeTheOutput : ∀ b : Byte, (b == 0x20#8) = true → dlut b = .invalid := by
  intro b h
  rw [eq_of_beq h]
  decide

end Sys2Proof.Tests
end

/-! ## How an operation moves

`MovedBy E s t` says in which ways the FSM, the counters, IN_LEN, MODE and CMDERR of `t` may differ from those of `s` when every event
performed between them is in `E`. One event moves an operation by itself (`exec_moves`), a cycle by its register access and then its
transfer (`MovedBy.thenTransfer`), and so every step but a reset cycle by the events it performs (`step_moves`). -/

namespace Sys2Proof.Machine

/-! ### The terms -/

/-- A stream transfer: a PUSH or a PULL (41_stream_ports.md R130 to R135). -/
abbrev IsTransfer (i : Instr) : Prop := (∃ b, i = .push b) ∨ i = .pull

/-- What completion leaves (41_stream_ports.md R140). -/
abbrev Completed (t : State) : Prop :=
  t.inCount = t.inLen ∧ t.obuf = [] ∧ t.done = true ∧ t.noout = (decide (t.inLen ≠ 0#32) && !t.anyout)

/-- Some event of `E` is an ENC or a DEC. -/
abbrev Starts (E : Instr → Prop) : Prop := ∃ ie ign, E (.enc ie ign) ∨ E (.dec ie ign)

/-- From `s` to `t` the operation moved only by events of `E` (10_state.md R21, R24 to R26, R34; 60_exceptions.md R202). -/
structure MovedBy (E : Instr → Prop) (s t : State) : Prop where
  starts : s.busy = false → t.busy = true → Starts E
  completes : s.busy = true → t.busy = false → (∃ i, E i ∧ IsTransfer i) ∧ Completed t
  inCount : s.busy = true → t.inCount ≠ s.inCount → t.inCount = s.inCount + 1#32 ∧ ∃ b, E (.push b)
  outCount : s.busy = true → t.outCount ≠ s.outCount → t.outCount = s.outCount + 1#32 ∧ E .pull
  idleCounters : s.busy = false → t.inCount ≠ s.inCount ∨ t.outCount ≠ s.outCount →
    (∃ i, E i ∧ IsTransfer i) ∨ (t.inCount = 0#32 ∧ t.outCount = 0#32 ∧ Starts E)
  inLen : t.inLen ≠ s.inLen → s.busy = false ∧ E (.wrInLen t.inLen)
  mode : t.mode ≠ s.mode → s.busy = false ∧
    ∃ ie ign, E (.cfg t.mode ie ign) ∨ (E (.enc ie ign) ∧ t.mode = .encode) ∨ (E (.dec ie ign) ∧ t.mode = .decode)
  cmderrSet : s.cmderr = false → t.cmderr = true → s.busy = true ∧ (Starts E ∨ ∃ d, E (.wrInLen d))
  cmderrCleared : s.cmderr = true → t.cmderr = false → ∃ d : Word, E (.wrStatus d) ∧ d.getLsbD 8 = true

/-- Nothing moved. -/
theorem MovedBy.of_same {E : Instr → Prop} {s t : State} (busy : t.busy = s.busy) (inCount : t.inCount = s.inCount)
    (outCount : t.outCount = s.outCount) (inLen : t.inLen = s.inLen) (mode : t.mode = s.mode) (cmderr : t.cmderr = s.cmderr) :
    MovedBy E s t := by
  constructor <;> simp_all

/-- More events allow more. -/
theorem MovedBy.mono {E F : Instr → Prop} {s t : State} (h : MovedBy E s t) (hEF : ∀ i, E i → F i) : MovedBy F s t := by
  have starts : Starts E → Starts F := fun ⟨ie, ign, e⟩ => ⟨ie, ign, e.imp (hEF _) (hEF _)⟩
  have transfer : (∃ i, E i ∧ IsTransfer i) → ∃ i, F i ∧ IsTransfer i := fun ⟨i, e, ht⟩ => ⟨i, hEF i e, ht⟩
  exact
    { starts := fun hs ht => starts (h.starts hs ht)
      completes := fun hs ht => (h.completes hs ht).imp_left transfer
      inCount := fun hs ht => (h.inCount hs ht).imp_right fun ⟨b, e⟩ => ⟨b, hEF _ e⟩
      outCount := fun hs ht => (h.outCount hs ht).imp_right (hEF _)
      idleCounters := fun hs ht => (h.idleCounters hs ht).imp transfer (And.imp_right (And.imp_right starts))
      inLen := fun ht => (h.inLen ht).imp_right (hEF _)
      mode := fun ht => (h.mode ht).imp_right fun ⟨ie, ign, e⟩ =>
        ⟨ie, ign, e.imp (hEF _) (Or.imp (And.imp_left (hEF _)) (And.imp_left (hEF _)))⟩
      cmderrSet := fun hs ht => (h.cmderrSet hs ht).imp_right (Or.imp starts fun ⟨d, e⟩ => ⟨d, hEF _ e⟩)
      cmderrCleared := fun hs ht => (h.cmderrCleared hs ht).imp fun _ => And.imp_left (hEF _) }

/-- A step that begins, and takes the item the host drives, moves nothing yet (log entries 1, 4 and 5). -/
theorem MovedBy.of_opened {E : Instr → Prop} {s t : State} {rest : List HostInput}
    (h : MovedBy E { s.openStep with inputs := rest } t) : MovedBy E s t :=
  ⟨h.starts, h.completes, h.inCount, h.outCount, h.idleCounters, h.inLen, h.mode, h.cmderrSet, h.cmderrCleared⟩

/-! ### One event -/

/-- CheckComplete makes the block IDLE only by completing (41_stream_ports.md R140). -/
theorem checkComplete_completed {s : State} (hs : s.busy = true) (ht : (checkComplete s).busy = false) :
    Completed (checkComplete s) := by
  rcases checkComplete_cases s with ⟨⟨_, hc, ho⟩, e⟩ | ⟨_, e⟩
  · rw [e]
    exact ⟨hc, ho, rfl, by simp [State.nooutAtCompletion, bne, beq_eq_decide]⟩
  · rw [e, hs] at ht
    cases ht

/-- CheckComplete starts nothing. -/
theorem checkComplete_busy_of_idle {s : State} (h : s.busy = false) : (checkComplete s).busy = false := by
  rw [checkComplete_idle (by simp [Finished, h])]
  exact h

/-- An accepted PUSH ends with CheckComplete, on a state that is still BUSY as before (41_stream_ports.md R132). -/
theorem acceptByte_eq_checkComplete (b : Byte) (s : State) : ∃ v, acceptByte b s = checkComplete v ∧ v.busy = s.busy :=
  ⟨_, rfl, by split <;> simp⟩

/-- An accepted PUSH (41_stream_ports.md R132). -/
theorem acceptByte_moves (b : Byte) (s : State) : MovedBy (· = .push b) s (acceptByte b s) := by
  have pushed : ∃ i : Instr, i = .push b ∧ IsTransfer i := ⟨_, rfl, .inl ⟨b, rfl⟩⟩
  obtain ⟨v, hv, hb⟩ := acceptByte_eq_checkComplete b s
  constructor
  case starts =>
    intro hs ht
    rw [hv, checkComplete_busy_of_idle (hb.trans hs)] at ht
    cases ht
  case completes =>
    intro hs ht
    rw [hv] at ht ⊢
    exact ⟨pushed, checkComplete_completed (hb.trans hs) ht⟩
  case idleCounters => exact fun _ _ => .inl pushed
  all_goals simp +contextual

/-- A PULL that takes a byte (41_stream_ports.md R135). -/
theorem deliverByte_moves (b : Byte) (rest : List Byte) (s : State) : MovedBy (· = .pull) s (deliverByte b rest s) := by
  have pulled : ∃ i : Instr, i = .pull ∧ IsTransfer i := ⟨_, rfl, .inr rfl⟩
  unfold deliverByte
  constructor
  case starts =>
    intro hs ht
    simp [checkComplete_busy_of_idle, hs] at ht
  case completes => exact fun hs ht => ⟨pulled, checkComplete_completed hs ht⟩
  case idleCounters => exact fun _ _ => .inl pulled
  all_goals simp +contextual

/-- A START's command while IDLE: Begin (40_host_interface.md R108). -/
theorem beginOperation_moves {E : Instr → Prop} {s : State} (m : Mode) (ie : Bool) (ign : BitVec 29) (hs : s.busy = false)
    (hE : (E (.enc ie ign) ∧ m = .encode) ∨ (E (.dec ie ign) ∧ m = .decode)) :
    MovedBy E s (beginOperation m { s with ie := ie }) := by
  rw [beginOperation_eq]
  have starts : Starts E := ⟨ie, ign, hE.imp And.left And.left⟩
  constructor
  case starts => exact fun _ _ => starts
  case idleCounters => exact fun _ _ => .inr ⟨by simp, by simp, starts⟩
  case mode => exact fun _ => ⟨hs, ie, ign, .inr (by simpa using hE)⟩
  all_goals simp_all

/-- ENC and DEC (40_host_interface.md R102 to R104). -/
theorem startCommand_moves {E : Instr → Prop} (m : Mode) (ie : Bool) (ign : BitVec 29) (s : State)
    (hE : (E (.enc ie ign) ∧ m = .encode) ∨ (E (.dec ie ign) ∧ m = .decode)) :
    MovedBy E s (startCommand m ie s) := by
  unfold startCommand
  split
  · rename_i hs
    constructor
    case cmderrSet => exact fun _ _ => ⟨hs, .inl ⟨ie, ign, hE.imp And.left And.left⟩⟩
    all_goals simp_all
  · rename_i hs
    exact beginOperation_moves m ie ign (by simpa using hs) hE

/-- One event moves the operation only as the event it is (10_state.md R34, 60_exceptions.md R202). -/
theorem exec_moves {i : Instr} {s t : State} (h : exec i s = .next t) : MovedBy (· = i) s t := by
  cases i with
  | cfg m ie ign =>
    cases h
    constructor
    case mode =>
      intro hm
      cases hb : s.busy <;> simp_all
    all_goals simp_all
  | enc ie ign =>
    cases h
    exact startCommand_moves .encode ie ign s (.inl ⟨rfl, rfl⟩)
  | dec ie ign =>
    cases h
    exact startCommand_moves .decode ie ign s (.inr ⟨rfl, rfl⟩)
  | wrStatus d =>
    cases h
    constructor
    case cmderrCleared =>
      intro hs ht
      exact ⟨d, rfl, by simpa [hs] using ht⟩
    all_goals simp_all
  | wrInLen d =>
    cases h
    split
    · rename_i hb
      constructor
      case cmderrSet => exact fun _ _ => ⟨hb, .inr ⟨d, rfl⟩⟩
      all_goals simp_all
    · rename_i hb
      constructor
      case inLen => exact fun _ => ⟨by simpa using hb, rfl⟩
      all_goals simp_all
  | push b =>
    cases h
    split
    · exact acceptByte_moves b s
    · exact .of_same rfl rfl rfl rfl rfl rfl
  | pull =>
    change execPull s = .next t at h
    unfold execPull at h
    split at h <;> cases h
    · exact deliverByte_moves _ _ s
    · exact .of_same rfl rfl rfl rfl rfl rfl
  | rdCtrl | rdStatus | rdInLen | rdInCount | rdOutCount | rdId | rdRsvd | wrInCount | wrOutCount | wrId | wrRsvd =>
    cases h
    exact .of_same rfl rfl rfl rfl rfl rfl

/-- An event, if there is one. -/
theorem execIf_moves {o : Option Instr} {s t : State} (h : execIf o s = .next t) : MovedBy (o = some ·) s t := by
  cases o with
  | none =>
    cases h
    exact .of_same rfl rfl rfl rfl rfl rfl
  | some i => exact (exec_moves h).mono fun j e => congrArg some e.symm

/-! ### A register access, then a transfer (70_reset_and_hazards.md R231) -/

/-- Events that are no transfer leave a running operation running and its counters alone. -/
theorem MovedBy.register_frame {R : Instr → Prop} {s u : State} (h : MovedBy R s u) (hR : ∀ i, R i → ¬ IsTransfer i)
    (hs : s.busy = true) : u.busy = true ∧ u.inCount = s.inCount ∧ u.outCount = s.outCount := by
  refine ⟨?_, ?_, ?_⟩
  · by_contra hu
    obtain ⟨⟨i, hi, ht⟩, _⟩ := h.completes hs (by simpa using hu)
    exact hR i hi ht
  · by_contra hu
    obtain ⟨_, b, hb⟩ := h.inCount hs hu
    exact hR _ hb (.inl ⟨b, rfl⟩)
  · by_contra hu
    exact hR _ (h.outCount hs hu).2 (.inr rfl)

/-- A transfer leaves IN_LEN, MODE and CMDERR alone and starts nothing. -/
theorem MovedBy.transfer_frame {j : Instr} {u t : State} (h : MovedBy (· = j) u t) (hj : IsTransfer j) :
    (u.busy = false → t.busy = false) ∧ t.inLen = u.inLen ∧ t.mode = u.mode ∧ t.cmderr = u.cmderr := by
  have hstart : ¬ Starts (· = j) := by
    rintro ⟨ie, ign, e⟩
    rcases hj with ⟨b, rfl⟩ | rfl <;> simp at e
  refine ⟨fun hu => ?_, ?_, ?_, ?_⟩
  · by_contra ht
    exact hstart (h.starts hu (by simpa using ht))
  · by_contra hl
    have e := (h.inLen hl).2
    rcases hj with ⟨b, rfl⟩ | rfl <;> simp at e
  · by_contra hm
    obtain ⟨_, ie, ign, e⟩ := h.mode hm
    rcases hj with ⟨b, rfl⟩ | rfl <;> simp at e
  · by_contra hc
    cases hu : u.cmderr with
    | false =>
      obtain ⟨_, hst | ⟨d, e⟩⟩ := h.cmderrSet hu (by simpa [hu] using hc)
      · exact hstart hst
      · rcases hj with ⟨b, rfl⟩ | rfl <;> simp at e
    | true =>
      obtain ⟨d, e, _⟩ := h.cmderrCleared hu (by simpa [hu] using hc)
      rcases hj with ⟨b, rfl⟩ | rfl <;> simp at e

/-- Register events, then one transfer. -/
theorem MovedBy.thenTransfer {R : Instr → Prop} {j : Instr} {s u t : State} (hr : MovedBy R s u)
    (hR : ∀ i, R i → ¬ IsTransfer i) (ht : MovedBy (· = j) u t) (hj : IsTransfer j) :
    MovedBy (fun i => R i ∨ i = j) s t := by
  obtain ⟨hidle, hlen, hmode, hcmd⟩ := ht.transfer_frame hj
  have hr' : MovedBy (fun i => R i ∨ i = j) s u := hr.mono fun _ => .inl
  have ht' : MovedBy (fun i => R i ∨ i = j) u t := ht.mono fun _ => .inr
  exact
    { starts := fun hs hb => hr'.starts hs <| by
        by_contra hu
        rw [hidle (by simpa using hu)] at hb
        cases hb
      completes := fun hs => ht'.completes (hr.register_frame hR hs).1
      inCount := fun hs => by
        obtain ⟨hu, hi, _⟩ := hr.register_frame hR hs
        exact hi ▸ ht'.inCount hu
      outCount := fun hs => by
        obtain ⟨hu, _, ho⟩ := hr.register_frame hR hs
        exact ho ▸ ht'.outCount hu
      idleCounters := fun _ _ => .inl ⟨j, .inr rfl, hj⟩
      inLen := hlen ▸ hr'.inLen
      mode := hmode ▸ hr'.mode
      cmderrSet := hcmd ▸ hr'.cmderrSet
      cmderrCleared := hcmd ▸ hr'.cmderrCleared }

/-! ### A whole step -/

/-- The step from `s` performs `i`: it is driven and does not wait, or it is the transfer of the cycle that is driven. -/
abbrev Performs (s : State) (i : Instr) : Prop :=
  (Drives s i ∧ waits i s = false) ∨ ∃ c rest, s.inputs = .cycle c :: rest ∧ c.rst = false ∧ c.streamEvent s = some i

/-- Only a transfer waits (41_stream_ports.md R130, R133). -/
theorem waits_eq_false {i : Instr} (h : ¬ IsTransfer i) (s : State) : waits i s = false := by
  cases i <;> simp_all [waits]

/-- A cycle's register access is no transfer. -/
theorem Cycle.regEvent_not_isTransfer {c : Cycle} {i : Instr} (h : c.regEvent = some i) : ¬ IsTransfer i := by
  obtain ⟨hpush, hpull⟩ := Cycle.regEvent_not_transfer h
  rintro (⟨b, e⟩ | e)
  · exact hpush b e
  · exact hpull e

/-- A cycle's stream event is a transfer. -/
theorem Cycle.streamEvent_isTransfer {c : Cycle} {s : State} {j : Instr} (h : c.streamEvent s = some j) : IsTransfer j :=
  (Cycle.streamEvent_enabled h).imp (fun ⟨e, _⟩ => ⟨_, e⟩) And.left

/-- What a step performs and is no transfer is driven in it. -/
theorem Performs.drives {s : State} {i : Instr} (h : Performs s i) (hi : ¬ IsTransfer i) : Drives s i := by
  rcases h with ⟨hd, _⟩ | ⟨c, rest, _, _, hc⟩
  · exact hd
  · exact absurd (Cycle.streamEvent_isTransfer hc) hi

/-- A PUSH is performed only with a byte offered and in_ready = 1. -/
theorem Performs.push_enabled {s : State} {b : Byte} (h : Performs s (.push b)) : s.inReady = true ∧ OffersByte s := by
  rcases h with ⟨hd, hw⟩ | ⟨c, rest, hin, hrst, hc⟩
  · exact ⟨by simpa [waits] using hw, .inl ⟨b, hd⟩⟩
  · rcases Cycle.streamEvent_enabled hc with ⟨_, hv, hr⟩ | ⟨e, _⟩
    · exact ⟨hr, .inr ⟨c, rest, hin, hrst, hv⟩⟩
    · cases e

/-- A PULL is performed only with a byte taken and out_valid = 1. -/
theorem Performs.pull_enabled {s : State} (h : Performs s .pull) : s.outValid = true ∧ AcceptsByte s := by
  rcases h with ⟨hd, hw⟩ | ⟨c, rest, hin, hrst, hc⟩
  · exact ⟨by simpa [waits] using hw, .inl hd⟩
  · rcases Cycle.streamEvent_enabled hc with ⟨e, _⟩ | ⟨_, hr, hv⟩
    · cases e
    · exact ⟨hv, .inr ⟨c, rest, hin, hrst, hr⟩⟩

/-- A transfer is performed only when its port is enabled and the host uses it. -/
theorem Performs.transfer_enabled {s : State} {i : Instr} (h : Performs s i) (hi : IsTransfer i) :
    (s.inReady = true ∧ OffersByte s) ∨ (s.outValid = true ∧ AcceptsByte s) := by
  rcases hi with ⟨b, rfl⟩ | rfl
  · exact .inl h.push_enabled
  · exact .inr h.pull_enabled

/-- What a step performs, a START among it, is driven. -/
theorem Starts.driven {s : State} (h : Starts (Performs s)) : ∃ ie ign, Drives s (.enc ie ign) ∨ Drives s (.dec ie ign) :=
  h.imp fun _ => Exists.imp fun _ => Or.imp (Performs.drives · (by simp)) (Performs.drives · (by simp))

/-- An idle block that meets the invariants performs no transfer (10_state.md R39 item 1, 41_stream_ports.md R131, R134). -/
theorem Performs.not_transfer_of_idle {s : State} (hinv : Invariant s) (hs : s.busy = false) :
    ¬ ∃ i, Performs s i ∧ IsTransfer i := by
  obtain ⟨⟨hempty, _⟩, _⟩ := hinv
  obtain ⟨ho, _⟩ := hempty hs
  rintro ⟨i, hi, ht⟩
  rcases hi.transfer_enabled ht with ⟨hr, _⟩ | ⟨hv, _⟩
  · simp [State.inReady, hs] at hr
  · simp [State.outValid, ho] at hv

/-- A step that is no reset cycle moves the operation only by what it performs (70_reset_and_hazards.md R220, R231). -/
theorem step_moves {s t : State} (h : step s = .next t) : DrivesReset s ∨ MovedBy (Performs s) s t := by
  have opened (E : Instr → Prop) : MovedBy E s s.openStep := .of_same rfl rfl rfl rfl rfl rfl
  rcases step_cases h with ⟨_, rfl⟩ | ⟨_, _, _, _, _, _, rfl⟩ | ⟨w, rest, i, hin, hd, hw, he⟩ | ⟨c, rest, hin, hrst, _⟩ |
    ⟨c, rest, u, hin, hrst, hreg, hstream⟩
  · exact .inr (opened _)
  · exact .inr (opened _)
  · have hm : MovedBy (· = i) s t := (exec_moves he).of_opened
    exact .inr (hm.mono fun _ e => .inl (e ▸ ⟨.inl ⟨w, rest, hin, hd⟩, hw⟩))
  · exact .inl ⟨c, rest, hin, hrst⟩
  · right
    have hm : MovedBy (c.regEvent = some ·) s u := (execIf_moves hreg).of_opened
    have performed (i : Instr) (hi : c.regEvent = some i) : Performs s i :=
      .inl ⟨.inr ⟨c, rest, hin, hrst, hi⟩, waits_eq_false (Cycle.regEvent_not_isTransfer hi) s⟩
    cases hj : c.streamEvent { s.openStep with inputs := rest } with
    | none =>
      rw [hj] at hstream
      cases hstream
      exact hm.mono performed
    | some j =>
      rw [hj] at hstream
      have hmt := hm.thenTransfer (fun _ => Cycle.regEvent_not_isTransfer) (exec_moves hstream) (Cycle.streamEvent_isTransfer hj)
      exact hmt.mono fun i e => e.elim (performed i) fun e => .inr ⟨c, rest, hin, hrst, e ▸ hj⟩

/-- Settles O55: what moved is what the step performed (`step_moves`), and that is what the host drives in it. -/
theorem stepsMoveTheOperationOnlyByEventsOrReset : Obligations.StepsMoveTheOperationOnlyByEventsOrReset := by
  refine ⟨fun s hin => by simp [step, performNext, hin], fun s t h => (step_moves h).imp_right fun m => ?_⟩
  refine ⟨fun hs ht => (m.starts hs ht).driven, fun hs ht => ?_, fun hs hc => ?_, fun hs hc => ?_, fun hinv hs hc => ?_,
    fun hl => ?_, fun hm => ?_, fun hs ht => ?_, fun hs ht => ?_⟩
  · obtain ⟨⟨i, hi, htr⟩, hdone⟩ := m.completes hs ht
    exact ⟨hi.transfer_enabled htr, hdone⟩
  · obtain ⟨hn, b, hb⟩ := m.inCount hs hc
    exact ⟨hn, hb.push_enabled⟩
  · obtain ⟨hn, hp⟩ := m.outCount hs hc
    exact ⟨hn, hp.pull_enabled⟩
  · obtain htr | ⟨hi, ho, hst⟩ := m.idleCounters hs hc
    · exact absurd htr (Performs.not_transfer_of_idle hinv hs)
    · exact ⟨hi, ho, hst.driven⟩
  · obtain ⟨hs, hp⟩ := m.inLen hl
    exact ⟨hs, _, hp.drives (by simp), rfl⟩
  · obtain ⟨hs, ie, ign, hp⟩ := m.mode hm
    exact ⟨hs, ie, ign, hp.imp (Performs.drives · (by simp))
      (Or.imp (And.imp_left (Performs.drives · (by simp))) (And.imp_left (Performs.drives · (by simp))))⟩
  · obtain ⟨hb, hst | ⟨d, hp⟩⟩ := m.cmderrSet hs ht
    · obtain ⟨ie, ign, hd | hd⟩ := hst.driven
      · exact ⟨hb, _, hd, .inl ⟨ie, ign, .inl rfl⟩⟩
      · exact ⟨hb, _, hd, .inl ⟨ie, ign, .inr rfl⟩⟩
    · exact ⟨hb, _, hp.drives (by simp), .inr ⟨d, rfl⟩⟩
  · obtain ⟨d, hp, h8⟩ := m.cmderrCleared hs ht
    exact ⟨d, hp.drives (by simp), h8⟩

end Sys2Proof.Machine

/-! ## What every step keeps

The invariants of 10_state.md R39 speak differently of an idle block and of a running one, so they are taken apart once into those two
cases (`invariant_of_idle`, `Running`). A running operation that is not yet looked at by CheckComplete is `Running`, and CheckComplete
turns that into the invariants (`Running.checkComplete_invariant`): START, PUSH and PULL end with it. What PUSH does to the group goes
through the bytes or values it holds (`groupLegal_cases`). -/

namespace Sys2Proof.Machine

/-! ### The terms -/

/-- The group or quad is closed: nothing is held (10_state.md R30, R31). -/
abbrev Closed (s : State) : Prop := s.acc = 0#24 ∧ s.cnt = 0

/-- R39 items 5 and 6: what ACC and CNT may hold. -/
abbrev GroupLegal (s : State) : Prop := PartialGroupLegal s ∧ UnfilledZero s

/-- A running operation before CheckComplete: its input may have ended with its output taken. -/
structure Running (s : State) : Prop where
  busy : s.busy = true
  done : s.done = false
  noout : s.noout = false
  inCount_le : s.inCount ≤ s.inLen
  obuf_le : s.obuf.length ≤ 4
  legal : GroupLegal s
  settled : s.inCount = s.inLen → Closed s

/-- What the datapath leaves of one byte: output only with the group closed (41_stream_ports.md R143). -/
structure Fed (s : State) : Prop where
  legal : GroupLegal s
  obuf_le : s.obuf.length ≤ 4
  closed : s.obuf ≠ [] → Closed s

/-! ### The group -/

/-- A closed group is legal. -/
theorem Closed.legal {s : State} (h : Closed s) : GroupLegal s := by
  obtain ⟨ha, hc⟩ := h
  exact ⟨⟨fun _ => by simp [hc], fun _ _ => ⟨ha, hc⟩⟩, fun j _ => by simp [ha]⟩

/-- An Encode group that holds bytes is legal. -/
theorem HoldsBytes.legal {s : State} {bs : List Byte} (h : HoldsBytes s bs) (hm : s.mode = .encode) : GroupLegal s := by
  refine ⟨⟨fun _ => ?_, fun hd => absurd (hm.symm.trans hd) (by decide)⟩, unfilled_of_bytes hm h⟩
  obtain ⟨hc, hl, _⟩ := h
  exact Fin.le_def.mpr (hc ▸ hl)

/-- A Decode quad that holds values is legal, if none once decoding has terminated. -/
theorem HoldsValues.legal {s : State} {vs : List Sextet} (h : HoldsValues s vs) (hm : s.mode = .decode)
    (ht : s.term = true → vs = []) : GroupLegal s := by
  refine ⟨⟨fun he => absurd (hm.symm.trans he) (by decide), fun _ hterm => ?_⟩, unfilled_of_values hm h⟩
  obtain rfl := ht hterm
  exact ⟨h.2, h.cnt_eq_zero_iff.mpr rfl⟩

/-- A legal group holds bytes in Encode; in Decode it holds values, and none once decoding has terminated. -/
theorem groupLegal_cases {s : State} (h : GroupLegal s) :
    (s.mode = .encode ∧ ∃ bs, HoldsBytes s bs) ∨
      (s.mode = .decode ∧ ∃ vs, HoldsValues s vs ∧ (s.term = true → vs = [])) := by
  obtain ⟨⟨henc, hdec⟩, hu⟩ := h
  cases hm : s.mode with
  | encode => exact .inl ⟨rfl, filled_bytes hm (henc hm) hu⟩
  | decode =>
    obtain ⟨vs, hv⟩ := filled_values hm hu
    exact .inr ⟨rfl, vs, hv, fun ht => hv.cnt_eq_zero_iff.mp (hdec hm ht).2⟩

/-- One more byte is held after EncByte with fewer than two (42_encode.md R151). -/
theorem HoldsBytes.snoc {s : State} {bs : List Byte} (b : Byte) (h : HoldsBytes s bs) (h2 : bs.length < 2) :
    HoldsBytes { s with acc := groupOf (bs ++ [b]), cnt := s.cnt + 1 } (bs ++ [b]) := by
  obtain ⟨hc, _, _⟩ := h
  refine ⟨?_, ?_, rfl⟩
  · simp only [Fin.val_add, Fin.val_one, List.length_append, List.length_singleton]
    omega
  · simp only [List.length_append, List.length_singleton]
    omega

/-- One more value is held after a VALUE byte with fewer than three (43_decode.md R172). -/
theorem HoldsValues.snoc {s : State} {vs : List Sextet} (v : Sextet) (h : HoldsValues s vs) (h3 : vs.length < 3) :
    HoldsValues { s with acc := quadOf (vs ++ [v]), cnt := s.cnt + 1 } (vs ++ [v]) := by
  obtain ⟨hc, _⟩ := h
  refine ⟨?_, rfl⟩
  simp only [Fin.val_add, Fin.val_one, List.length_append, List.length_singleton]
  omega

/-! ### One byte through the datapath -/

/-- A group left open, with no output. -/
theorem Fed.of_legal {s : State} (hl : GroupLegal s) (ho : s.obuf = []) : Fed s :=
  ⟨hl, by simp [ho], fun h => absurd ho h⟩

/-- A group that closed, with its output. -/
theorem Fed.of_closed {s : State} (hc : Closed s) (hl : s.obuf.length ≤ 4) : Fed s := ⟨hc.legal, hl, fun _ => hc⟩

/-- EncByte (42_encode.md R151). -/
theorem encByte_fed {s : State} {bs : List Byte} (b : Byte) (hm : s.mode = .encode) (h : HoldsBytes s bs) (ho : s.obuf = []) :
    Fed (encByte b s) := by
  by_cases h2 : bs.length < 2
  · rw [encByte_opens b h h2]
    exact .of_legal ((h.snoc b h2).legal hm) ho
  · have e2 : bs.length = 2 := le_antisymm h.2.1 (not_lt.mp h2)
    rw [encByte_emits b h e2]
    exact .of_closed ⟨rfl, rfl⟩ (by simpa [ho] using encodeText_length_le (bs ++ [b]) (by simp [e2]))

/-- A VALUE byte (43_decode.md R172, R173). -/
theorem decValue_fed {s : State} {vs : List Sextet} (v : Sextet) (hm : s.mode = .decode) (h : HoldsValues s vs)
    (ht : s.term = false) (ho : s.obuf = []) : Fed (decValue v s) := by
  by_cases h3 : vs.length < 3
  · rw [decValue_adds v h h3]
    exact .of_legal ((h.snoc v h3).legal hm fun e => absurd (ht.symm.trans e) (by decide)) ho
  · rw [decValue_completes v h (le_antisymm h.length_le (not_lt.mp h3))]
    exact .of_closed ⟨rfl, rfl⟩ (by simpa [ho] using (quadBytes_length_le (vs ++ [v])).trans (by decide))

/-- A PAD byte (43_decode.md R174, R177). -/
theorem decPad_fed {s : State} {vs : List Sextet} (h : HoldsValues s vs) (ho : s.obuf = []) : Fed (decPad s) := by
  by_cases hc : s.cnt = 0
  · obtain rfl := h.cnt_eq_zero_iff.mp hc
    rw [decPad_empty hc]
    exact .of_closed ⟨h.2, hc⟩ (by simp [ho])
  · rw [decPad_closes hc, closeQuad_emits h]
    exact .of_closed ⟨rfl, rfl⟩ (by simpa [ho] using (quadBytes_length_le vs).trans (by decide))

/-- DecByte (43_decode.md R172, R175, R178). -/
theorem decByte_fed {s : State} {vs : List Sextet} (b : Byte) (hm : s.mode = .decode) (h : HoldsValues s vs)
    (hnil : s.term = true → vs = []) (ho : s.obuf = []) : Fed (decByte b s) := by
  cases ht : s.term with
  | true =>
    rw [decByte_afterTerm b ht]
    exact .of_legal (h.legal hm hnil) ho
  | false =>
    cases hd : dlut b with
    | value v =>
      rw [decByte_value ht hd]
      exact decValue_fed v hm h ht ho
    | pad =>
      rw [decByte_pad ht hd]
      exact decPad_fed h ho
    | invalid =>
      rw [decByte_invalid ht hd]
      exact .of_legal (h.legal hm hnil) ho

/-- The datapath of the running mode (41_stream_ports.md R132). -/
theorem datapathByte_fed {s : State} (b : Byte) (hl : GroupLegal s) (ho : s.obuf = []) : Fed (datapathByte b s) := by
  rcases groupLegal_cases hl with ⟨hm, bs, h⟩ | ⟨hm, vs, h, hnil⟩
  · rw [datapathByte_encode b hm]
    exact encByte_fed b hm h ho
  · rw [datapathByte_decode b hm]
    exact decByte_fed b hm h hnil ho

/-- EndOfInput leaves a closed group as it is (42_encode.md R155, 43_decode.md R179). -/
theorem endOfInput_of_closed {s : State} (h : Closed s) : endOfInput s = s := by
  obtain ⟨_, hc⟩ := h
  cases hm : s.mode with
  | encode => simp [endOfInput_encode hm, encEnd, hc]
  | decode => simp [endOfInput_decode hm, decEnd, hc]

/-- EndOfInput closes the group, and OBUF still holds at most four bytes (41_stream_ports.md R139, R143). -/
theorem endOfInput_closes {s : State} (h : Fed s) : Closed (endOfInput s) ∧ (endOfInput s).obuf.length ≤ 4 := by
  by_cases ho : s.obuf = []
  · rcases groupLegal_cases h.legal with ⟨hm, bs, hb⟩ | ⟨hm, vs, hv, hnil⟩
    · rw [endOfInput_encode hm, encEnd_pads hb]
      exact ⟨⟨rfl, rfl⟩, by simpa [ho] using encodeText_length_le bs (hb.2.1.trans (by decide))⟩
    · rw [endOfInput_decode hm, decEnd_closes hv hnil]
      exact ⟨⟨rfl, rfl⟩, by simpa [ho] using (quadBytes_length_le vs).trans (by decide)⟩
  · rw [endOfInput_of_closed (h.closed ho)]
    exact ⟨h.closed ho, h.obuf_le⟩

/-! ### The invariants of an idle block and of a running one -/

/-- An idle block with nothing held and nothing to deliver meets the invariants. -/
theorem invariant_of_idle {s : State} (hb : s.busy = false) (ho : s.obuf = []) (hc : Closed s) : Invariant s := by
  have idle {p : Prop} (h : s.busy = true) : p := absurd (hb.symm.trans h) (by decide)
  obtain ⟨hpart, hunf⟩ := hc.legal
  exact ⟨⟨fun _ => ⟨ho, hc⟩, idle, idle, ⟨by simp [ho], fun _ => by simp [ho]⟩, hpart, hunf⟩, idle⟩

/-- An idle block that meets the invariants has nothing to deliver and nothing held (10_state.md R39 item 1). -/
theorem Invariant.idle_empty {s : State} (h : Invariant s) (hb : s.busy = false) : s.obuf = [] ∧ Closed s := by
  obtain ⟨⟨hidle, _⟩, _⟩ := h
  exact hidle hb

/-- A running operation that has not completed meets the invariants. -/
theorem Running.invariant {s : State} (h : Running s) (hp : s.inCount = s.inLen → s.obuf ≠ []) : Invariant s := by
  have accepted (hr : s.inReady = true) : s.obuf.length = 0 := by simp [((inReady_iff s).mp hr).2.2]
  obtain ⟨hpart, hunf⟩ := h.legal
  exact ⟨⟨fun hb => absurd (hb.symm.trans h.busy) (by decide), fun _ => ⟨h.done, h.noout⟩, fun _ => h.inCount_le,
    ⟨h.obuf_le, accepted⟩, hpart, hunf⟩, fun _ e => ⟨hp e, h.settled e⟩⟩

/-- A block that meets the invariants and is BUSY runs an operation. -/
theorem Invariant.running {s : State} (h : Invariant s) (hb : s.busy = true) : Running s := by
  obtain ⟨⟨_, hdone, hcount, ⟨hbuf, _⟩, hpart, hunf⟩, hend⟩ := h
  obtain ⟨hd, hn⟩ := hdone hb
  exact ⟨hb, hd, hn, hcount hb, hbuf, ⟨hpart, hunf⟩, fun e => (hend hb e).2⟩

/-- CheckComplete turns a running operation into one that can go on, or into an idle block (41_stream_ports.md R140). -/
theorem Running.checkComplete_invariant {s : State} (h : Running s) : Invariant (checkComplete s) := by
  rcases checkComplete_cases s with ⟨⟨_, hc, ho⟩, e⟩ | ⟨hn, e⟩
  · rw [e]
    exact invariant_of_idle rfl ho (h.settled hc)
  · rw [e]
    exact h.invariant fun hc ho => hn ⟨h.busy, hc, ho⟩

/-! ### One event -/

/-- Begin, from an idle block (40_host_interface.md R108). -/
theorem beginOperation_invariant {s : State} (m : Mode) (ho : s.obuf = []) : Invariant (beginOperation m s) := by
  have hc : Closed (s.startOperation m) := ⟨rfl, rfl⟩
  have hr : Running (s.startOperation m) :=
    { busy := rfl, done := rfl, noout := rfl, inCount_le := by simp [BitVec.le_def], obuf_le := by simp [ho], legal := hc.legal,
      settled := fun _ => hc }
  rw [beginOperation_eq]
  exact hr.checkComplete_invariant

/-- ENC and DEC (40_host_interface.md R102 to R104). -/
theorem startCommand_invariant {s : State} (m : Mode) (ie : Bool) (h : Invariant s) : Invariant (startCommand m ie s) := by
  unfold startCommand
  split
  · exact h
  · rename_i hb
    exact beginOperation_invariant (s := { s with ie := ie }) m (h.idle_empty (by simpa using hb)).1

/-- The end of PUSH, after the datapath of a running operation (41_stream_ports.md R132, R138). -/
theorem finishInput_invariant {s : State} (hf : Fed s) (hb : s.busy = true) (hd : s.done = false) (hn : s.noout = false)
    (hle : s.inCount ≤ s.inLen) : Invariant (finishInput s) := by
  unfold finishInput
  apply Running.checkComplete_invariant
  split
  · obtain ⟨hc, hl⟩ := endOfInput_closes hf
    exact
      { busy := by simpa using hb, done := by simpa using hd, noout := by simpa using hn, inCount_le := by simpa using hle,
        obuf_le := hl, legal := hc.legal, settled := fun _ => hc }
  · exact
      { busy := hb, done := hd, noout := hn, inCount_le := hle, obuf_le := hf.obuf_le, legal := hf.legal,
        settled := fun e => absurd e ‹_› }

/-- An accepted PUSH (41_stream_ports.md R132). -/
theorem acceptByte_invariant {s : State} (b : Byte) (h : Invariant s) (hr : s.inReady = true) : Invariant (acceptByte b s) := by
  obtain ⟨hb, hne, ho⟩ := (inReady_iff s).mp hr
  have hs := h.running hb
  have hle : s.inCount + 1#32 ≤ s.inLen := by
    have hle := hs.inCount_le
    bv_omega
  have hf : Fed (datapathByte b { s with inCount := s.inCount + 1#32 }) := datapathByte_fed b hs.legal ho
  exact finishInput_invariant hf (by simpa using hb) (by simpa using hs.done) (by simpa using hs.noout) (by simpa using hle)

/-- A PULL that takes a byte (41_stream_ports.md R135). -/
theorem deliverByte_invariant {s : State} {b : Byte} {rest : List Byte} (h : Invariant s) (ho : s.obuf = b :: rest) :
    Invariant (deliverByte b rest s) := by
  have hb : s.busy = true := by
    by_contra hb
    simpa [ho] using (h.idle_empty (by simpa using hb)).1
  have hs := h.running hb
  have hl : rest.length ≤ 4 := by
    have hl := hs.obuf_le
    rw [ho, List.length_cons] at hl
    omega
  exact Running.checkComplete_invariant
    { busy := hb, done := hs.done, noout := hs.noout, inCount_le := hs.inCount_le, obuf_le := hl, legal := hs.legal,
      settled := hs.settled }

/-- Every event keeps the invariants. -/
theorem exec_invariant {i : Instr} {s t : State} (hinv : Invariant s) (h : exec i s = .next t) : Invariant t := by
  cases i with
  | cfg m ie ign =>
    cases h
    cases hb : s.busy with
    | true =>
      rw [if_pos rfl]
      exact hb ▸ hinv
    | false =>
      obtain ⟨ho, hc⟩ := hinv.idle_empty hb
      exact invariant_of_idle rfl ho hc
  | enc ie ign =>
    cases h
    exact startCommand_invariant .encode ie hinv
  | dec ie ign =>
    cases h
    exact startCommand_invariant .decode ie hinv
  | wrStatus d =>
    cases h
    obtain ⟨⟨hidle, hdone, hrest⟩, hend⟩ := hinv
    exact ⟨⟨hidle, fun hb => ⟨by simp [(hdone hb).1], (hdone hb).2⟩, hrest⟩, hend⟩
  | wrInLen d =>
    cases h
    split
    · exact hinv
    · rename_i hb
      have hb : s.busy = false := by simpa using hb
      obtain ⟨ho, hc⟩ := hinv.idle_empty hb
      exact invariant_of_idle hb ho hc
  | push b =>
    cases h
    split
    · exact acceptByte_invariant b hinv ‹_›
    · exact hinv
  | pull =>
    change execPull s = .next t at h
    unfold execPull at h
    split at h <;> cases h
    · exact deliverByte_invariant hinv ‹_›
    · exact hinv
  | rdCtrl | rdStatus | rdInLen | rdInCount | rdOutCount | rdId | rdRsvd | wrInCount | wrOutCount | wrId | wrRsvd =>
    cases h
    exact hinv

/-- An event, if there is one, keeps the invariants. -/
theorem execIf_invariant {o : Option Instr} {s t : State} (hinv : Invariant s) (h : execIf o s = .next t) : Invariant t := by
  cases o with
  | none =>
    cases h
    exact hinv
  | some i => exact exec_invariant hinv h

/-- On an idle block that meets the invariants a transfer changes nothing (41_stream_ports.md R131, R134). -/
theorem exec_transfer_idle {i : Instr} {s t : State} (hinv : Invariant s) (hb : s.busy = false) (hi : IsTransfer i)
    (h : exec i s = .next t) : t = s := by
  obtain ⟨ho, _⟩ := hinv.idle_empty hb
  rcases hi with ⟨b, rfl⟩ | rfl
  · exact (Host.Outcome.next.inj ((execPush_waits b (by simp [State.inReady, hb])).symm.trans h)).symm
  · exact (Host.Outcome.next.inj ((execPull_waits ho).symm.trans h)).symm

/-! ### Steps and reset -/

/-- The reset state meets the invariants. -/
theorem reset_invariant : Invariant State.reset := invariant_of_idle rfl rfl ⟨rfl, rfl⟩

/-- A step keeps the invariants. -/
theorem step_invariant {s t : State} (hinv : Invariant s) (h : step s = .next t) : Invariant t := by
  rcases step_cases h with ⟨_, rfl⟩ | ⟨_, _, _, _, _, _, rfl⟩ | ⟨w, rest, i, _, _, _, he⟩ | ⟨_, _, _, _, rfl⟩ |
    ⟨c, rest, u, _, _, hreg, hstream⟩
  · exact hinv
  · exact hinv
  · exact exec_invariant (s := { s.openStep with inputs := rest }) hinv he
  · exact reset_invariant
  · have hu : Invariant u := execIf_invariant (s := { s.openStep with inputs := rest }) hinv hreg
    exact execIf_invariant hu hstream

/-- Every reachable state meets the invariants: reset meets them, driving inputs does not touch them, and a step keeps them. -/
theorem Reachable.invariant {s : State} (h : Reachable s) : Invariant s := by
  induction h with
  | reset => exact reset_invariant
  | drive s l _ ih => exact ih
  | step s t _ hst ih => exact step_invariant ih hst

/-- A reset cycle is the reset and nothing else (70_reset_and_hazards.md R220). -/
theorem step_resetCycle {s : State} {c : Cycle} {rest : List HostInput} (hin : s.inputs = .cycle c :: rest) (hr : c.rst = true) :
    step s = .next (State.applyReset { s.openStep with inputs := rest }) := by
  simp [step, performNext, hin, runCycle, hr]

/-- R38's table holds of the reset state. -/
theorem reset_asAfterReset : AsAfterReset State.reset := by decide

/-! ### irq -/

/-- irq (10_state.md R29). -/
theorem State.irq_iff (s : State) : s.irq = true ↔ s.ie = true ∧ s.done = true := Bool.and_eq_true_iff

/-- While an operation runs, irq is 0 (10_state.md R29, R39 item 2). -/
theorem Invariant.busy_of_irq {s : State} (h : Invariant s) (hq : s.irq = true) : s.busy = false := by
  by_contra hb
  have hd := (h.running (by simpa using hb)).done
  exact absurd (hd.symm.trans ((State.irq_iff s).mp hq).2) (by decide)

/-- Begin leaves irq 1 only where IE is 1 and the input is empty, so that the operation has completed (40_host_interface.md R108). -/
theorem beginOperation_irq {s : State} {m : Mode} (ho : s.obuf = []) (hq : (beginOperation m s).irq = true) :
    s.ie = true ∧ (beginOperation m s).busy = false ∧ Completed (beginOperation m s) := by
  have hb := (beginOperation_invariant m ho).busy_of_irq hq
  have hie := ((State.irq_iff _).mp hq).1
  rw [beginOperation_eq] at hb hie ⊢
  exact ⟨by simpa using hie, hb, checkComplete_completed rfl hb⟩

/-- On an idle block that meets the invariants, irq rises only by an ENC or a DEC of an empty input, which completes at once, or by a CFG
that sets IE (40_host_interface.md R101, R108; 60_exceptions.md R203). -/
theorem exec_irq_rises_idle {i : Instr} {s t : State} (hinv : Invariant s) (hb : s.busy = false) (h : exec i s = .next t)
    (hs : s.irq = false) (ht : t.irq = true) :
    (t.busy = false ∧ Completed t ∧ ∃ ign, i = .enc true ign ∨ i = .dec true ign) ∨
      (s.done = true ∧ ∃ m ign, i = .cfg m true ign) := by
  obtain ⟨ho, _⟩ := hinv.idle_empty hb
  have low : s.irq ≠ true := by simp [hs]
  have started {m : Mode} {ie : Bool} (e : startCommand m ie s = t) : ie = true ∧ t.busy = false ∧ Completed t := by
    subst e
    rw [startCommand, if_neg (by simp [hb])] at ht ⊢
    exact beginOperation_irq (s := { s with ie := ie }) ho ht
  cases i with
  | cfg m ie ign =>
    cases h
    obtain ⟨rfl, hd⟩ := (State.irq_iff _).mp ht
    exact .inr ⟨hd, m, ign, rfl⟩
  | enc ie ign =>
    obtain ⟨rfl, hbusy, hdone⟩ := started (Host.Outcome.next.inj h)
    exact .inl ⟨hbusy, hdone, ign, .inl rfl⟩
  | dec ie ign =>
    obtain ⟨rfl, hbusy, hdone⟩ := started (Host.Outcome.next.inj h)
    exact .inl ⟨hbusy, hdone, ign, .inr rfl⟩
  | wrStatus d =>
    cases h
    obtain ⟨hie, hd⟩ := (State.irq_iff _).mp ht
    exact absurd ((State.irq_iff s).mpr ⟨hie, (Bool.and_eq_true_iff.mp hd).1⟩) low
  | wrInLen d =>
    cases h
    rw [if_neg (by simp [hb])] at ht
    exact absurd ht low
  | push b =>
    obtain rfl := exec_transfer_idle hinv hb (.inl ⟨b, rfl⟩) h
    exact absurd ht low
  | pull =>
    obtain rfl := exec_transfer_idle hinv hb (.inr rfl) h
    exact absurd ht low
  | rdCtrl | rdStatus | rdInLen | rdInCount | rdOutCount | rdId | rdRsvd | wrInCount | wrOutCount | wrId | wrRsvd =>
    cases h
    exact absurd ht low

/-! ### The statements -/

/-- Settles O39: the invariants hold after every event (`exec_invariant`), and a step is a reset or such events. -/
theorem everyStepKeepsTheInvariant : Obligations.EveryStepKeepsTheInvariant := fun _ _ => step_invariant

/-- Settles O40: a reachable state meets the whole invariant, EndSettled included. -/
theorem reachableStatesMeetTheStateRules : Obligations.ReachableStatesMeetTheStateRules := fun _ h => h.invariant.1

/-- Settles O43: what one event moves (`exec_moves`), for the FSM. -/
theorem onlyStartAndCompletionMoveTheFsm : Obligations.OnlyStartAndCompletionMoveTheFsm := by
  intro i s t h
  have moved := exec_moves h
  refine ⟨fun hs ht => ?_, fun hs ht => ?_⟩
  · obtain ⟨ie, ign, hstart⟩ := moved.starts hs ht
    exact ⟨ie, ign, hstart.imp Eq.symm Eq.symm⟩
  · obtain ⟨⟨_, rfl, htransfer⟩, hdone⟩ := moved.completes hs ht
    exact ⟨htransfer.symm, hdone⟩

/-- Settles O44: what one event moves (`exec_moves`), for the counters and MODE; an idle block that meets the invariants performs no
transfer. -/
theorem countersChangeOnlyByTheirEvents : Obligations.CountersChangeOnlyByTheirEvents := by
  intro i s t h
  have moved := exec_moves h
  refine ⟨fun hl => (moved.inLen hl).imp_right Eq.symm, fun hs hc => ?_, fun hs hc => (moved.outCount hs hc).imp_right Eq.symm,
    fun hinv hs hc => ?_, fun hm => ?_⟩
  · obtain ⟨hn, b, hb⟩ := moved.inCount hs hc
    exact ⟨hn, b, hb.symm⟩
  · obtain ⟨_, rfl, htransfer⟩ | ⟨hi, ho, ie, ign, hstart⟩ := moved.idleCounters hs hc
    · obtain rfl := exec_transfer_idle hinv hs htransfer h
      simp at hc
    · exact ⟨hi, ho, ie, ign, hstart.imp Eq.symm Eq.symm⟩
  · obtain ⟨hs, ie, ign, e⟩ := moved.mode hm
    exact ⟨hs, ie, ign, e.imp Eq.symm (Or.imp (And.imp_left Eq.symm) (And.imp_left Eq.symm))⟩

/-- Settles O47: while BUSY irq is 0, so it rises there only with completion; while IDLE by `exec_irq_rises_idle`. -/
theorem irqRisesOnlyByCompletionOrEnable : Obligations.IrqRisesOnlyByCompletionOrEnable := by
  intro i s t hinv h
  refine ⟨State.irq_iff t, fun hs ht => ?_⟩
  cases hb : s.busy with
  | false =>
    exact (exec_irq_rises_idle hinv hb h hs ht).imp_left fun ⟨hbusy, ⟨hc, ho, _⟩, hstart⟩ =>
      ⟨hbusy, hc, ho, .inr (.inr hstart)⟩
  | true =>
    have hbusy := (exec_invariant hinv h).busy_of_irq ht
    obtain ⟨⟨_, rfl, htransfer⟩, hc, ho, _⟩ := (exec_moves h).completes hb hbusy
    exact .inl ⟨hbusy, hc, ho, htransfer.imp_right .inl⟩

/-- Settles O36: a reset cycle is the reset, whose state R38's table describes. -/
theorem resetCycleRestoresTheResetState : Obligations.ResetCycleRestoresTheResetState :=
  ⟨reset_asAfterReset, fun _ _ _ hin hr => ⟨_, step_resetCycle hin hr, reset_asAfterReset⟩⟩

/-- Settles O38: the reset state is idle with nothing held and nothing to deliver. -/
theorem resetMeetsTheInvariant : Obligations.ResetMeetsTheInvariant := reset_invariant

end Sys2Proof.Machine

/-! ## The register map (20_memory.md R50 to R52)

Where an address falls (`wordIndex_toNat`, `busOffset_base_add`), what an access by pins is (`runCycle_read`), and which accesses leave
at their repetition what they left at first (`exec_idempotent`). -/

namespace Sys2Proof.Machine

/-! ### Addresses -/

/-- The word index of a byte offset as a number (20_memory.md R51). -/
theorem wordIndex_toNat (o : BitVec 5) : (wordIndex o).toNat = o.toNat / 4 := by
  have ho : o.toNat < 32 := o.isLt
  simp only [wordIndex, BitVec.extractLsb'_toNat, Nat.shiftRight_eq_div_pow]
  omega

/-- An offset whose upper three bits are `a` has word index `a`: reg_addr[1:0] are ignored (20_memory.md R51). -/
theorem wordIndex_append (a : BitVec 3) (low : BitVec 2) : wordIndex (a ++ low) = a :=
  BitVec.extractLsb'_append_eq_left

/-- The 32 bus addresses from B64C_BASE are the 32 offsets (20_memory.md R50). -/
theorem busOffset_base_add {k : Nat} (h : k < 32) : busOffset (Config.base + k) = some (BitVec.ofNat 5 k) := by
  rw [busOffset, if_pos (by omega), Nat.add_sub_cancel_left]

/-- No other bus address reaches the block (20_memory.md R50). -/
theorem busOffset_outside {address : Nat} (h : address < Config.base ∨ Config.base + 32 ≤ address) : busOffset address = none :=
  if_neg (by omega)

/-- Settles O10: the offset of B64C_BASE + 4a + low is 4a + low, whose quarter is a. -/
theorem busAddressesSelectTheWord : Obligations.BusAddressesSelectTheWord := by
  refine ⟨fun a low hlow => ?_, fun _ => busOffset_outside⟩
  have ha : a.toNat < 8 := a.isLt
  have hk : 4 * a.toNat + low < 32 := by omega
  refine ⟨_, by rw [hostAddress, Nat.add_assoc, busOffset_base_add hk], ?_⟩
  apply BitVec.eq_of_toNat_eq
  rw [wordIndex_toNat, BitVec.toNat_ofNat, Nat.mod_eq_of_lt hk]
  omega

/-! ### Register reads -/

/-- A read transaction answers the value of its word index and changes nothing else (20_memory.md R52). -/
theorem exec_readInstr (a : BitVec 3) (s : State) : exec (readInstr a) s = .next (s.respond (s.regValue a)) := by
  unfold readInstr State.regValue
  split_ifs <;> rfl

/-- With no byte offered and none taken a cycle has no transfer (41_stream_ports.md R130, R133). -/
theorem Cycle.streamEvent_eq_none {c : Cycle} (hin : c.inValid = false) (hout : c.outReady = false) (s : State) :
    c.streamEvent s = none := by
  simp [Cycle.streamEvent, hin, hout]

/-- A cycle that only reads a register is the read transaction of its word index (30_encoding.md R71). -/
theorem runCycle_read {c : Cycle} (hrst : c.rst = false) (hsel : c.regSel = true) (hwe : c.regWe = false)
    (hin : c.inValid = false) (hout : c.outReady = false) (s : State) :
    runCycle c s = exec (readInstr (wordIndex c.regAddr)) s := by
  have access : c.regEvent = some (readInstr (wordIndex c.regAddr)) := by simp [Cycle.regEvent, hsel, hwe]
  simp [runCycle, hrst, access, Cycle.streamEvent_eq_none hin hout, execIf, exec_readInstr, andThen]

/-- Settles O15: such a cycle is the read transaction (`runCycle_read`), of a word index the low address bits have no part in. -/
theorem registerReadsChangeNoState : Obligations.RegisterReadsChangeNoState := by
  intro s c hrst hsel hwe hin hout
  have read := exec_readInstr (wordIndex c.regAddr) s
  refine ⟨_, (runCycle_read hrst hsel hwe hin hout s).trans read, read, fun low => ?_⟩
  have reads := runCycle_read (c := { c with regAddr := wordIndex c.regAddr ++ low }) hrst hsel hwe hin hout s
  rw [wordIndex_append] at reads
  exact reads.trans read

/-! ### Register writes -/

/-- A register write is an ENC or a DEC only as a write of CTRL with START = 1 (30_encoding.md R73, R75). -/
theorem writeInstr_not_starts {a : BitVec 3} {d : Word} (h : a = 0#3 → d.getLsbD 0 = false) : ¬ Starts (writeInstr a d = ·) := by
  unfold writeInstr ctrlInstr
  split_ifs <;> simp_all

/-- CFG twice is CFG once: BUSY, which says whether it writes MODE, does not move (40_host_interface.md R101). -/
theorem execCfg_idempotent {m : Mode} {ie : Bool} {s t : State} (h : execCfg m ie s = .next t) : execCfg m ie t = .next t := by
  cases h
  cases s.busy <;> simp [execCfg]

/-- WR_STATUS twice is WR_STATUS once: a cleared flag stays cleared (40_host_interface.md R105). -/
theorem execWrStatus_idempotent {d : Word} {s t : State} (h : execWrStatus d s = .next t) : execWrStatus d t = .next t := by
  cases h
  simp [execWrStatus]

/-- WR_IN_LEN twice is WR_IN_LEN once, in both states of the FSM, which it does not move (40_host_interface.md R106). -/
theorem execWrInLen_idempotent {d : Word} {s t : State} (h : execWrInLen d s = .next t) : execWrInLen d t = .next t := by
  cases h
  cases s.busy <;> simp [execWrInLen]

/-- Every event but a START and a transfer is idempotent: a read answers the same value again, and a write writes it again
(20_memory.md R52). -/
theorem exec_idempotent {i : Instr} {s t : State} (hstart : ¬ Starts (i = ·)) (htransfer : (∀ b, i ≠ .push b) ∧ i ≠ .pull)
    (h : exec i s = .next t) : exec i t = .next t := by
  obtain ⟨hpush, hpull⟩ := htransfer
  cases i with
  | cfg m ie ign => exact execCfg_idempotent h
  | wrStatus d => exact execWrStatus_idempotent h
  | wrInLen d => exact execWrInLen_idempotent h
  | enc ie ign => exact absurd ⟨ie, ign, .inl rfl⟩ hstart
  | dec ie ign => exact absurd ⟨ie, ign, .inr rfl⟩ hstart
  | push b => exact absurd rfl (hpush b)
  | pull => exact absurd rfl hpull
  | rdCtrl | rdStatus | rdInLen | rdInCount | rdOutCount | rdId | rdRsvd | wrInCount | wrOutCount | wrId | wrRsvd =>
    cases h
    rfl

/-- Settles O23: a write that is no START is an idempotent event (`exec_idempotent`). -/
theorem registerWritesAreIdempotent : Obligations.RegisterWritesAreIdempotent :=
  fun a d _ _ hd h => exec_idempotent (writeInstr_not_starts hd) (writeInstr_not_transfer a d) h

end Sys2Proof.Machine

/-! ## Words and instructions (30_encoding.md R70 to R77)

`Transaction w i` says that the word `w` is one transaction of the table and `i` is what it means. The decoder answers `i` exactly there
(`decode_eq_ok_iff`), and it is the well-formed instruction whose word is `w` (`Transaction.wellFormed`, `Transaction.encode_eq`,
`transaction_encode`): both round trips follow. All other words are malformed (`decode_eq_error_iff`). -/

namespace Sys2Proof

/-! ### The terms -/

/-- The word `w` is the transaction `i`: a read, a write, a PUSH or a PULL, by its kind K (30_encoding.md R71, R73). -/
inductive Transaction (w : Htw) (i : Instr) : Prop where
  | read (a : BitVec 3) (word : w = makeHtw 0b00#2 a 0#32) (instr : i = readInstr a)
  | write (a : BitVec 3) (d : Word) (word : w = makeHtw 0b01#2 a d) (instr : i = writeInstr a d)
  | push (b : Byte) (word : w = makeHtw 0b10#2 0#3 (b.setWidth 32)) (instr : i = .push b)
  | pull (word : w = makeHtw 0b11#2 0#3 0#32) (instr : i = .pull)

/-- The clauses of 30_encoding.md R77, of the fields of a word. -/
abbrev Malformed (w : Htw) : Prop :=
  w.zbits ≠ 0#3 ∨ (w.kind = 0b00#2 ∧ w.data ≠ 0#32) ∨
    (w.kind = 0b10#2 ∧ (w.index ≠ 0#3 ∨ w.data.extractLsb' 8 24 ≠ 0#24)) ∨
    (w.kind = 0b11#2 ∧ (w.index ≠ 0#3 ∨ w.data ≠ 0#32))

/-! ### The rows of the register accesses -/

/-- K has four values (30_encoding.md R71). -/
theorem kind_cases (k : BitVec 2) : k = 0b00#2 ∨ k = 0b01#2 ∨ k = 0b10#2 ∨ k = 0b11#2 := by
  revert k
  decide

/-- A read of word index 6 or 7 is RD_RSVD (30_encoding.md R73 item 2). -/
theorem readInstr_reserved {a : BitVec 3} (h : isReservedIndex a = true) : readInstr a = .rdRsvd a := by
  revert a
  decide

/-- A write of word index 6 or 7 is WR_RSVD (30_encoding.md R73 item 4). -/
theorem writeInstr_reserved {a : BitVec 3} (h : isReservedIndex a = true) (d : Word) : writeInstr a d = .wrRsvd a d := by
  have ha : a = 6#3 ∨ a = 7#3 := by simpa [isReservedIndex] using h
  rcases ha with rfl | rfl <;> rfl

/-- A CTRL command word is CFG, ENC or DEC by START and MODE (30_encoding.md R73 item 3, R75). -/
theorem ctrlInstr_ctrlData (start : Bool) (m : Mode) (ie : Bool) (ign : BitVec 29) :
    ctrlInstr (ctrlData start m ie ign) =
      if start then if m.bit then .dec ie ign else .enc ie ign else .cfg m ie ign := by
  simp only [ctrlInstr, ctrlData_start, ctrlData_mode, ctrlData_ie, ctrlData_ignored, Mode.ofBit_bit]

/-! ### The decoder -/

/-- A transaction decodes to what it means. -/
theorem Transaction.decode_eq {w : Htw} {i : Instr} (h : Transaction w i) : decode w = .ok i := by
  cases h with
  | read a word instr => rw [word, instr, decode_read]
  | write a d word instr => rw [word, instr, decode_write]
  | push b word instr => rw [word, instr, decode_push]
  | pull word instr => rw [word, instr, decode_pull]

/-- D[31:8] is not 0 exactly when a bit of it is set. -/
theorem high_ne_zero_iff (d : Word) : d.extractLsb' 8 24 ≠ 0#24 ↔ ∃ j, 8 ≤ j ∧ d.getLsbD j = true := by
  constructor
  · intro h
    by_contra hnone
    push Not at hnone
    apply h
    apply BitVec.eq_of_getLsbD_eq
    intro j _
    simp [hnone (8 + j) (by omega)]
  · rintro ⟨j, hj, hbit⟩ h
    have hlt : j < 32 := BitVec.lt_of_getLsbD hbit
    have e := congrArg (BitVec.getLsbD · (j - 8)) h
    simp [show j - 8 < 24 by omega, show 8 + (j - 8) = j by omega, hbit] at e

/-- A word is reserved exactly when a clause of 30_encoding.md R77 holds of it. -/
theorem decode_eq_error_iff {w : Htw} : (∃ why, decode w = .error why) ↔ Malformed w := by
  by_cases hz : w.zbits = 0#3
  case neg => simp [Malformed, decode_zNonZero hz, hz]
  rcases kind_cases w.kind with hk | hk | hk | hk
  · by_cases hd : w.data = 0#32 <;> simp [Malformed, decode, hz, hk, hd]
  · simp [Malformed, decode, hz, hk]
  · by_cases ha : w.index = 0#3 <;> by_cases hd : w.data.extractLsb' 8 24 = 0#24 <;> simp [Malformed, decode, hz, hk, ha, hd]
  · by_cases ha : w.index = 0#3 <;> by_cases hd : w.data = 0#32 <;> simp [Malformed, decode, hz, hk, ha, hd]

/-- A word on which no clause holds is laid out as its kind says, so it is a transaction. -/
theorem transaction_of_not_malformed {w : Htw} (h : ¬ Malformed w) : ∃ i, Transaction w i := by
  simp only [Malformed, ne_eq, not_or, not_and, not_not] at h
  obtain ⟨hz, hread, hpush, hpull⟩ := h
  have fields := makeHtw_fields w hz
  rcases kind_cases w.kind with hk | hk | hk | hk
  · exact ⟨_, .read w.index (by rw [← hk, ← hread hk, fields]) rfl⟩
  · exact ⟨_, .write w.index w.data (by rw [← hk, fields]) rfl⟩
  · obtain ⟨ha, hd⟩ := hpush hk
    exact ⟨_, .push (w.data.extractLsb' 0 8) (by rw [widened_of_high_zero _ hd, ← hk, ← ha, fields]) rfl⟩
  · obtain ⟨ha, hd⟩ := hpull hk
    exact ⟨_, .pull (by rw [← hk, ← ha, ← hd, fields]) rfl⟩

/-- The decoder answers an instruction exactly on its transactions. -/
theorem decode_eq_ok_iff {w : Htw} {i : Instr} : decode w = .ok i ↔ Transaction w i := by
  refine ⟨fun h => ?_, Transaction.decode_eq⟩
  have hm : ¬ Malformed w := fun hm => by
    obtain ⟨why, he⟩ := decode_eq_error_iff.mpr hm
    cases he.symm.trans h
  obtain ⟨j, hj⟩ := transaction_of_not_malformed hm
  obtain rfl := Except.ok.inj (hj.decode_eq.symm.trans h)
  exact hj

/-! ### The encoder -/

/-- What a word means is well-formed. -/
theorem Transaction.wellFormed {w : Htw} {i : Instr} (h : Transaction w i) : i.WellFormed := by
  cases h with
  | read a _ instr => exact instr ▸ readInstr_wf a
  | write a d _ instr => exact instr ▸ writeInstr_wf a d
  | push b _ instr => exact instr ▸ rfl
  | pull _ instr => exact instr ▸ rfl

/-- A word is the word of what it means. -/
theorem Transaction.encode_eq {w : Htw} {i : Instr} (h : Transaction w i) : encode i = w := by
  cases h with
  | read a word instr => rw [word, instr, encode_readInstr]
  | write a d word instr => rw [word, instr, encode_writeInstr]
  | push b word instr => rw [word, instr, encode]
  | pull word instr => rw [word, instr, encode]

/-- The word of a well-formed instruction is a transaction, and means that instruction: row by row (30_encoding.md R74). -/
theorem transaction_encode {i : Instr} (h : i.WellFormed) : Transaction (encode i) i := by
  cases i with
  | rdCtrl => exact .read 0#3 rfl rfl
  | rdStatus => exact .read 1#3 rfl rfl
  | rdInLen => exact .read 2#3 rfl rfl
  | rdInCount => exact .read 3#3 rfl rfl
  | rdOutCount => exact .read 4#3 rfl rfl
  | rdId => exact .read 5#3 rfl rfl
  | rdRsvd a => exact .read a rfl (readInstr_reserved h).symm
  | cfg m ie ign => exact .write 0#3 _ rfl (ctrlInstr_ctrlData false m ie ign).symm
  | enc ie ign => exact .write 0#3 _ rfl (ctrlInstr_ctrlData true .encode ie ign).symm
  | dec ie ign => exact .write 0#3 _ rfl (ctrlInstr_ctrlData true .decode ie ign).symm
  | wrStatus d => exact .write 1#3 d rfl rfl
  | wrInLen d => exact .write 2#3 d rfl rfl
  | wrInCount d => exact .write 3#3 d rfl rfl
  | wrOutCount d => exact .write 4#3 d rfl rfl
  | wrId d => exact .write 5#3 d rfl rfl
  | wrRsvd a d => exact .write a d rfl (writeInstr_reserved h d).symm
  | push b => exact .push b rfl rfl
  | pull => exact .pull rfl rfl

/-! ### The round trips -/

/-- Settles O1: the word of a well-formed instruction is a transaction that means it (`transaction_encode`). -/
theorem decodeOfEncodeIsTheInstruction : Obligations.DecodeOfEncodeIsTheInstruction :=
  fun _ h => (transaction_encode h).decode_eq

/-- Settles O2: a word that decodes is a transaction (`decode_eq_ok_iff`), and so the word of what it means. -/
theorem encodeOfDecodeIsTheWord : Obligations.EncodeOfDecodeIsTheWord :=
  fun _ _ h => ⟨(decode_eq_ok_iff.mp h).wellFormed, (decode_eq_ok_iff.mp h).encode_eq⟩

end Sys2Proof

/-! ## The match and mask table (30_encoding.md R74, R77)

The words of the table's rows are the words that decode (`decodes_iff_row`): an instruction's word is on its own row
(`rowMatch_statement`), and no word of a row is malformed (`OpRow.Matches.not_malformed`). -/

namespace Sys2Proof

/-- What the rows of each kind fix: K, and Z at 0; D at 0 of a read; A and D[31:8] at 0 of a PUSH; A and D at 0 of a PULL. -/
abbrev OpRow.FixesByKind (r : OpRow) : Prop :=
  (r.mask.kind = .allOnes 2 ∧ r.mask.zbits = .allOnes 3 ∧ r.pattern.zbits = 0#3) ∧
    (r.pattern.kind = 0b00#2 → r.mask.data = .allOnes 32 ∧ r.pattern.data = 0#32) ∧
    (r.pattern.kind = 0b10#2 →
      r.mask.index = .allOnes 3 ∧ r.pattern.index = 0#3 ∧ r.mask.data = 0xFFFFFF00#32 ∧ r.pattern.data = 0#32) ∧
    (r.pattern.kind = 0b11#2 →
      r.mask.index = .allOnes 3 ∧ r.pattern.index = 0#3 ∧ r.mask.data = .allOnes 32 ∧ r.pattern.data = 0#32)

/-- The 18 rows do. -/
theorem opRows_fixesByKind : ∀ r ∈ opRows, r.FixesByKind := by decide

/-- A PUSH row's mask reads D[31:8]. -/
theorem high_zero_of_masked {d : Word} (h : d &&& 0xFFFFFF00#32 = 0#32) : d.extractLsb' 8 24 = 0#24 := by
  have ones : (0xFFFFFF00#32).extractLsb' 8 24 = .allOnes 24 := by decide
  have e := congrArg (BitVec.extractLsb' 8 24) h
  rw [BitVec.extractLsb'_and, ones, BitVec.and_allOnes] at e
  exact e

/-- No clause of 30_encoding.md R77 holds of a word with a row's fixed bits. -/
theorem OpRow.Matches.not_malformed {r : OpRow} {w : Htw} (hr : r ∈ opRows) (h : r.Matches w) : ¬ Malformed w := by
  obtain ⟨hk, ha, hz, hd⟩ := match_fields h
  obtain ⟨⟨mk, mz, pz⟩, read, push, pull⟩ := opRows_fixesByKind r hr
  rw [mk, BitVec.and_allOnes] at hk
  rw [mz, BitVec.and_allOnes, pz] at hz
  rw [← hk] at read push pull
  rintro (bad | ⟨k, bad⟩ | ⟨k, bad⟩ | ⟨k, bad⟩)
  · exact bad hz
  · obtain ⟨md, pd⟩ := read k
    rw [md, BitVec.and_allOnes, pd] at hd
    exact bad hd
  · obtain ⟨ma, pa, md, pd⟩ := push k
    rw [ma, BitVec.and_allOnes, pa] at ha
    rw [md, pd] at hd
    exact bad.elim (· ha) (· (high_zero_of_masked hd))
  · obtain ⟨ma, pa, md, pd⟩ := pull k
    rw [ma, BitVec.and_allOnes, pa] at ha
    rw [md, BitVec.and_allOnes, pd] at hd
    exact bad.elim (· ha) (· hd)

/-- Every instruction's word has the fixed bits of the instruction's own row: the family RowMatch in one. -/
theorem rowMatch_statement (i : Instr) : Laws.RowMatch.Statement i := by
  cases i with
  | rdCtrl => exact Laws.RowMatch.rdCtrl
  | rdStatus => exact Laws.RowMatch.rdStatus
  | rdInLen => exact Laws.RowMatch.rdInLen
  | rdInCount => exact Laws.RowMatch.rdInCount
  | rdOutCount => exact Laws.RowMatch.rdOutCount
  | rdId => exact Laws.RowMatch.rdId
  | rdRsvd a => exact Laws.RowMatch.rdRsvd a
  | cfg m ie ign => exact Laws.RowMatch.cfg m ie ign
  | enc ie ign => exact Laws.RowMatch.enc ie ign
  | dec ie ign => exact Laws.RowMatch.dec ie ign
  | wrStatus d => exact Laws.RowMatch.wrStatus d
  | wrInLen d => exact Laws.RowMatch.wrInLen d
  | wrInCount d => exact Laws.RowMatch.wrInCount d
  | wrOutCount d => exact Laws.RowMatch.wrOutCount d
  | wrId d => exact Laws.RowMatch.wrId d
  | wrRsvd a d => exact Laws.RowMatch.wrRsvd a d
  | push b => exact Laws.RowMatch.push b
  | pull => exact Laws.RowMatch.pull

/-- A word that decodes is on the row of the instruction it decodes to. -/
theorem row_of_decode {w : Htw} {i : Instr} (h : decode w = .ok i) : ∃ r ∈ opRows, r.mnemonic = i.mnemonic ∧ r.Matches w := by
  have ht := decode_eq_ok_iff.mp h
  exact ht.encode_eq ▸ rowMatch_statement i ht.wellFormed

/-- A word decodes exactly when it is on a row of the table. -/
theorem decodes_iff_row {w : Htw} : (∃ i, decode w = .ok i) ↔ ∃ r ∈ opRows, r.Matches w := by
  constructor
  · rintro ⟨i, h⟩
    obtain ⟨r, hr, _, hm⟩ := row_of_decode h
    exact ⟨r, hr, hm⟩
  · rintro ⟨r, hr, hm⟩
    exact (transaction_of_not_malformed (hm.not_malformed hr)).imp fun _ => Transaction.decode_eq

/-- A reserved word is on no row (30_encoding.md R77). -/
theorem not_matches_of_reserved {w : Htw} {why : ReservedWord} (h : decode w = .error why) : ∀ r ∈ opRows, ¬ r.Matches w :=
  fun _ hr hm => hm.not_malformed hr (decode_eq_error_iff.mp ⟨why, h⟩)

/-- Settles O3: a word that decodes is on its instruction's row (`row_of_decode`), the only row with that mnemonic and the only row it is
on; a reserved word is on none. -/
theorem everyWordHasOneRowOrIsReserved : Obligations.EveryWordHasOneRowOrIsReserved := by
  refine fun w => ⟨fun i h r hr => ?_, fun _ => not_matches_of_reserved⟩
  obtain ⟨q, hq, hname, hmatch⟩ := row_of_decode h
  constructor
  · intro hm
    rw [opRows_unique hr hq hm hmatch, hname]
  · intro hm
    rwa [opRows_mnemonic_unique r hr q hq (hm.trans hname.symm)]

end Sys2Proof

/-! ## A step on a word (30_encoding.md R71, R77)

A step refuses a reserved word, leaves a transfer that is not enabled where it is, and otherwise performs the word's instruction, which
always completes (60_exceptions.md R200). -/

namespace Sys2Proof.Machine

/-- A word the host drives next is what the step takes up. -/
theorem step_word {s : State} {w : Htw} {rest : List HostInput} (hin : s.inputs = .htw w :: rest) :
    step s = runWord w rest s.openStep := by
  simp [step, performNext, hin]

/-- A cycle the host drives next is what the step runs. -/
theorem step_cycle {s : State} {c : Cycle} {rest : List HostInput} (hin : s.inputs = .cycle c :: rest) :
    step s = runCycle c { s.openStep with inputs := rest } := by
  simp [step, performNext, hin]

/-- With nothing driven the block stays as it is (00_scope.md R8). -/
theorem step_nothing {s : State} (hin : s.inputs = []) : step s = .next s.openStep := by
  simp [step, performNext, hin]

/-- A reserved word is refused, whatever the state (30_encoding.md R77). -/
theorem step_reserved {s : State} {w : Htw} {rest : List HostInput} {why : ReservedWord} (hin : s.inputs = .htw w :: rest)
    (hd : decode w = .error why) : step s = .refused (.reservedWord why) := by
  simp [step_word hin, runWord, hd]

/-- Whether a transfer waits does not depend on what a step clears when it begins. -/
@[simp] theorem waits_openStep (i : Instr) (s : State) : waits i s.openStep = waits i s := by
  cases i <;> rfl

/-- A transfer that is not enabled waits (41_stream_ports.md R132, R135). -/
theorem step_waits {s : State} {w : Htw} {rest : List HostInput} {i : Instr} (hin : s.inputs = .htw w :: rest)
    (hd : decode w = .ok i) (hw : waits i s = true) : step s = .next s.openStep := by
  simp [step_word hin, runWord, hd, hw]

/-- Any other word is performed. -/
theorem step_performs {s : State} {w : Htw} {rest : List HostInput} {i : Instr} (hin : s.inputs = .htw w :: rest)
    (hd : decode w = .ok i) (hw : waits i s = false) : step s = exec i { s.openStep with inputs := rest } := by
  simp [step_word hin, runWord, hd, hw]

/-- Every transaction completes (60_exceptions.md R200). -/
theorem exec_completes (i : Instr) (s : State) : ∃ t, exec i s = .next t := by
  cases i with
  | pull =>
    cases ho : s.obuf with
    | nil => exact ⟨_, execPull_waits ho⟩
    | cons b rest => exact ⟨_, execPull_delivers ho⟩
  | _ => exact ⟨_, rfl⟩

/-- So does every event of a cycle. -/
theorem execIf_completes (o : Option Instr) (s : State) : ∃ t, execIf o s = .next t := by
  cases o with
  | none => exact ⟨s, rfl⟩
  | some i => exact exec_completes i s

/-- So does a cycle (70_reset_and_hazards.md R220, R231). -/
theorem runCycle_completes (c : Cycle) (s : State) : ∃ t, runCycle c s = .next t := by
  unfold runCycle
  split
  · exact ⟨_, rfl⟩
  · obtain ⟨u, hu⟩ := execIf_completes c.regEvent s
    rw [hu]
    exact execIf_completes (c.streamEvent s) u

/-- So does a step on a word that decodes. -/
theorem step_completes_of_decode {s : State} {w : Htw} {rest : List HostInput} {i : Instr} (hin : s.inputs = .htw w :: rest)
    (hd : decode w = .ok i) : ∃ t, step s = .next t := by
  cases hw : waits i s with
  | true => exact ⟨_, step_waits hin hd hw⟩
  | false => exact step_performs hin hd hw ▸ exec_completes i _

/-- Settles O4: the clauses of R77 on a word's fields (`decode_eq_error_iff`), and the step's refusal (`step_reserved`). -/
theorem reservedWordsAreExactlyTheMalformedOnes : Obligations.ReservedWordsAreExactlyTheMalformedOnes := by
  refine ⟨fun k a z d => ?_, fun _ _ _ _ => step_reserved⟩
  rw [decode_eq_error_iff, Malformed, Htw.kind_append, Htw.index_append, Htw.zbits_append, Htw.data_append, high_ne_zero_iff]

/-- Settles O35: a word of no row is reserved and refused; nothing driven, a cycle and a word of a row complete. -/
theorem onlyReservedWordsAreRefused : Obligations.OnlyReservedWordsAreRefused := by
  intro s
  constructor
  · rintro ⟨t, ht⟩ w rest hin
    cases hd : decode w with
    | ok i => exact decodes_iff_row.mp ⟨i, hd⟩
    | error why => cases (step_reserved hin hd).symm.trans ht
  · intro hrow
    cases hin : s.inputs with
    | nil => exact ⟨_, step_nothing hin⟩
    | cons item rest =>
      cases item with
      | htw w =>
        obtain ⟨i, hd⟩ := decodes_iff_row.mpr (hrow w rest hin)
        exact step_completes_of_decode hin hd
      | cycle c => exact step_cycle hin ▸ runCycle_completes c _

/-- Settles O34: the word decodes to its instruction, which does not wait: only a transfer does, and an enabled one does not. -/
theorem stepPerformsTheDecodedWord : Obligations.StepPerformsTheDecodedWord := by
  intro s i rest hwf hin hpush hpull
  have hw : waits i s = false := by
    by_cases ht : IsTransfer i
    · rcases ht with ⟨b, rfl⟩ | rfl
      · simp [waits, hpush b rfl]
      · simp [waits, hpull rfl]
    · exact waits_eq_false ht s
  exact step_performs hin (transaction_encode hwf).decode_eq hw

end Sys2Proof.Machine

/-! ## CTRL commands, the assembler and the character tables (30_encoding.md R73 to R85)

A line of the assembler is the read or the write of its register's word index (`decode_rd`, `decode_wr`), so what each line and each
pseudo-instruction means is one row of `readInstr`, `writeInstr` or `ctrlInstr`. -/

namespace Sys2Proof

/-! ### CTRL commands -/

/-- A write of CTRL. -/
theorem decode_ctrlWrite (d : Word) : decode (0x40#8 ++ d) = .ok (ctrlInstr d) := decode_write 0#3 d

/-- Settles O5: the three branches of `ctrlInstr`. -/
theorem ctrlWritesDecodeByStartAndMode : Obligations.CtrlWritesDecodeByStartAndMode := by
  refine fun d => ⟨fun h0 => ?_, fun h0 h1 => ?_, fun h0 h1 => ?_⟩ <;> rw [decode_ctrlWrite, ctrlInstr, h0]
  · rfl
  · rw [h1]
    rfl
  · rw [h1]
    rfl

/-- Settles O6: each word is one of a kind's layout (R70), decoded by that kind's rule. -/
theorem writtenOutWordsDecode : Obligations.WrittenOutWordsDecode :=
  ⟨decode_read 1#3, decode_read 7#3, decode_write 0#3 6#32, decode_write 0#3 7#32, decode_write 1#3 0x102#32, decode_write 2#3 2#32,
    decode_push 0x41#8, decode_pull, rfl⟩

/-! ### The assembler -/

/-- `RD` of a register is the read of its word index (30_encoding.md R84); the other three lines likewise. -/
@[simp] theorem decode_rd (r : RegName) : decode (Asm.rd r).word = .ok (readInstr r.index) := decode_read r.index

@[simp] theorem decode_wr (r : RegName) (v : Word) : decode (Asm.wr r v).word = .ok (writeInstr r.index v) := decode_write r.index v

@[simp] theorem decode_pushLine (b : Byte) : decode (Asm.push b).word = .ok (.push b) := decode_push b

@[simp] theorem decode_pullLine : decode Asm.pull.word = .ok .pull := decode_pull

/-- Settles O7: a register's line is the row of its word index. -/
theorem assemblerLinesAreTransactions : Obligations.AssemblerLinesAreTransactions :=
  ⟨⟨decode_rd .ctrl, decode_rd .status, decode_rd .inLen, decode_rd .inCount, decode_rd .outCount, decode_rd .id, decode_rd .rsvd6,
      decode_rd .rsvd7⟩,
    fun v => ⟨decode_wr .ctrl v, decode_wr .status v, decode_wr .inLen v, decode_wr .inCount v, decode_wr .outCount v, decode_wr .id v,
      decode_wr .rsvd6 v, decode_wr .rsvd7 v⟩,
    decode_pushLine, decode_pullLine⟩

/-- The CTRL word of the pseudo-instruction ENC (30_encoding.md R85). -/
theorem writeInstr_encWord (ie : Bool) : writeInstr 0#3 (if ie then 0x5#32 else 0x1#32) = .enc ie 0#29 := by
  cases ie <;> rfl

/-- The CTRL word of the pseudo-instruction DEC. -/
theorem writeInstr_decWord (ie : Bool) : writeInstr 0#3 (if ie then 0x7#32 else 0x3#32) = .dec ie 0#29 := by
  cases ie <;> rfl

/-- The CTRL word of the pseudo-instruction CFG. -/
theorem writeInstr_cfgWord (m : Mode) (ie : Bool) :
    writeInstr 0#3 ((if m.bit then 0x2#32 else 0#32) ||| (if ie then 0x4#32 else 0#32)) = .cfg m ie 0#29 := by
  cases m <;> cases ie <;> rfl

/-- Settles O8: line by line, each pseudo-instruction's words decode by the rule of the line. -/
theorem pseudoInstructionsExpand : Obligations.PseudoInstructionsExpand := by
  refine ⟨fun ie => ?_, fun ie => ?_, fun m ie => ?_, fun n => ?_, ?_, ?_, fun text => ?_, fun n => ?_, fun polls => ?_⟩
  · simp [Pseudo.expand, RegName.index, writeInstr_encWord]
  · simp [Pseudo.expand, RegName.index, writeInstr_decWord]
  · simp [Pseudo.expand, RegName.index, writeInstr_cfgWord]
  · simp [Pseudo.expand, RegName.index, writeInstr]
  · simp [Pseudo.expand, RegName.index, writeInstr]
  · simp [Pseudo.expand, RegName.index, writeInstr]
  · simp [Pseudo.expand, Function.comp_def]
  · simp [Pseudo.expand]
  · simp [Pseudo.expand, RegName.index, readInstr]

end Sys2Proof

namespace Sys2Proof.Machine

/-! ### The character tables -/

/-- ELUT's codes, range by range (30_encoding.md R80). -/
theorem elut_codes (v : Sextet) :
    (v.toNat ≤ 25 → (elut v).toNat = 0x41 + v.toNat) ∧
    (26 ≤ v.toNat → v.toNat ≤ 51 → (elut v).toNat = 0x61 + (v.toNat - 26)) ∧
    (52 ≤ v.toNat → v.toNat ≤ 61 → (elut v).toNat = 0x30 + (v.toNat - 52)) ∧
    (v.toNat = 62 → elut v = 0x2B#8) ∧ (v.toNat = 63 → elut v = 0x2F#8) := by
  revert v
  decide

/-- DLUT takes a character back to its value (30_encoding.md R81). -/
theorem dlut_elut (v : Sextet) : dlut (elut v) = .value v := by
  revert v
  decide

/-- The bytes of DLUT's five VALUE ranges are ELUT's characters (30_encoding.md R80, R81). -/
theorem elut_of_dlut {b : Byte} {v : Sextet} (h : dlut b = .value v) : b = elut v := by
  obtain ⟨upper, lower, digit, plus, slash⟩ := elut_codes v
  apply BitVec.eq_of_toNat_eq
  unfold dlut at h
  split_ifs at h with hupper hlower hdigit hplus hslash <;> cases h
  · have hv : ((b - 0x41#8).setWidth 6).toNat = b.toNat - 0x41 := by bv_omega
    have hb : 0x41 ≤ b.toNat ∧ b.toNat ≤ 0x5A := hupper
    rw [upper (by omega), hv]
    omega
  · have hv : ((b - 0x61#8 + 26#8).setWidth 6).toNat = b.toNat - 0x61 + 26 := by bv_omega
    have hb : 0x61 ≤ b.toNat ∧ b.toNat ≤ 0x7A := hlower
    rw [lower (by omega) (by omega), hv]
    omega
  · have hv : ((b - 0x30#8 + 52#8).setWidth 6).toNat = b.toNat - 0x30 + 52 := by bv_omega
    have hb : 0x30 ≤ b.toNat ∧ b.toNat ≤ 0x39 := hdigit
    rw [digit (by omega) (by omega), hv]
    omega
  · rw [plus rfl, hplus]
  · rw [slash rfl, hslash]

/-- DLUT's VALUE entries are the inverse of ELUT. -/
theorem dlut_value_iff (b : Byte) (v : Sextet) : dlut b = .value v ↔ b = elut v :=
  ⟨elut_of_dlut, fun h => h ▸ dlut_elut v⟩

/-- `=` alone is PAD (30_encoding.md R82). -/
theorem dlut_pad_iff (b : Byte) : dlut b = .pad ↔ b = 0x3D#8 := by
  constructor
  · intro h
    unfold dlut at h
    split_ifs at h with _ _ _ _ _ hpad
    exact hpad
  · rintro rfl
    rfl

/-- The whitespace set (30_encoding.md R83). -/
theorem isWs_iff (b : Byte) : isWs b = true ↔ b ∈ [0x09#8, 0x0A#8, 0x0B#8, 0x0C#8, 0x0D#8, 0x20#8] := by
  simp [isWs, or_assoc]

/-- Whitespace is INVALID: no whitespace code is a character or `=`. -/
theorem dlut_ws {b : Byte} (h : isWs b = true) : dlut b = .invalid :=
  (by decide : ∀ c ∈ [0x09#8, 0x0A#8, 0x0B#8, 0x0C#8, 0x0D#8, 0x20#8], dlut c = .invalid) b ((isWs_iff b).mp h)

/-- Settles O9: the printed tables' formulas, table by table. -/
theorem characterTablesAreInverse : Obligations.CharacterTablesAreInverse :=
  ⟨elut_codes, dlut_value_iff, dlut_pad_iff, isWs_iff, fun _ => dlut_ws⟩

end Sys2Proof.Machine

/-! ## The host interface: reads, commands and register writes (40_host_interface.md R101 to R115)

A register read answers `State.regValue` of its word index (`exec_readInstr`), so each read needs only its register's value: for CTRL
and STATUS that is the word's bits (`ctrlWord_bits`, `statusWord_bits`). A CTRL write's transaction is one of three
(`ctrlWritesDecodeByStartAndMode`), and ENC and DEC are one command, of two modes (`startCommand_busy`, `startCommand_idle`). -/

namespace Sys2Proof.Machine

/-! ### Register reads -/

/-- The bits of CTRL as read (40_host_interface.md R109). -/
theorem ctrlWord_bits (s : State) :
    s.ctrlWord.getLsbD 0 = false ∧ s.ctrlWord.getLsbD 1 = s.mode.bit ∧ s.ctrlWord.getLsbD 2 = s.ie ∧
      ∀ j, 3 ≤ j → s.ctrlWord.getLsbD j = false := by
  simp only [State.ctrlWord, BitVec.getLsbD_append]
  refine ⟨by simp, by simp, by simp, fun j hj => ?_⟩
  obtain ⟨i, rfl⟩ := Nat.exists_eq_add_of_le' hj
  simp

/-- The bits of STATUS as read (40_host_interface.md R110). -/
theorem statusWord_bits (s : State) :
    s.statusWord.getLsbD 0 = s.busy ∧ s.statusWord.getLsbD 1 = s.done ∧ s.statusWord.getLsbD 2 = s.noout ∧
      s.statusWord.getLsbD 3 = s.inv ∧ s.statusWord.getLsbD 4 = s.tail ∧ s.statusWord.getLsbD 5 = s.lone ∧
      s.statusWord.getLsbD 6 = false ∧ s.statusWord.getLsbD 7 = false ∧ s.statusWord.getLsbD 8 = s.cmderr ∧
      ∀ j, 9 ≤ j → s.statusWord.getLsbD j = false := by
  simp only [State.statusWord, BitVec.getLsbD_append]
  refine ⟨by simp, by simp, by simp, by simp, by simp, by simp, by simp, by simp, by simp, fun j hj => ?_⟩
  obtain ⟨i, rfl⟩ := Nat.exists_eq_add_of_le' hj
  simp

/-- MODE's bit is 1 exactly in Decode (10_state.md R21). -/
theorem mode_bit_eq_decide (m : Mode) : m.bit = decide (m = .decode) := by
  cases m <;> rfl

/-- Settles O11: the read of word index 0, whose bits are CTRL's. -/
theorem readCtrlReturnsModeAndIe : Obligations.ReadCtrlReturnsModeAndIe := by
  refine ⟨decode_read 0#3, fun s => ?_⟩
  obtain ⟨start, mode, ie, rest⟩ := ctrlWord_bits s
  exact ⟨s.ctrlWord, exec_readInstr 0#3 s, start, mode.trans (mode_bit_eq_decide s.mode), ie, rest⟩

/-- Settles O12: the read of word index 1, whose bits are the flags; while BUSY two of them are 0 by R39 item 2. -/
theorem readStatusReturnsTheFlags : Obligations.ReadStatusReturnsTheFlags := by
  refine ⟨decode_read 1#3, fun s => ?_⟩
  obtain ⟨busy, done, noout, inv, tail, lone, bit6, bit7, cmderr, rest⟩ := statusWord_bits s
  refine ⟨s.statusWord, exec_readInstr 1#3 s, busy, done, noout, inv, tail, lone, bit6, bit7, cmderr, rest, fun hides hb => ?_⟩
  rw [done, noout]
  exact hides (busy.symm.trans hb)

/-- Settles O13: the reads of word indexes 2 to 4. -/
theorem readLengthAndCounts : Obligations.ReadLengthAndCounts :=
  ⟨decode_read 2#3, decode_read 3#3, decode_read 4#3, fun s => ⟨exec_readInstr 2#3 s, exec_readInstr 3#3 s, exec_readInstr 4#3 s⟩⟩

/-- Settles O14: the reads of word indexes 5 to 7; RD_RSVD answers 0 whatever index it carries. -/
theorem readIdAndReservedAreConstant : Obligations.ReadIdAndReservedAreConstant :=
  ⟨decode_read 5#3, decode_read 6#3, decode_read 7#3, fun s => ⟨exec_readInstr 5#3 s, fun _ => rfl⟩⟩

/-! ### Commands -/

/-- Settles O16: the first branch of a CTRL write; irq is read off the state CFG leaves, whose DONE is the old one. -/
theorem cfgConfiguresWithoutStarting : Obligations.CfgConfiguresWithoutStarting := by
  refine ⟨fun d h0 => ?_, fun s m ie ign => ⟨rfl, fun t ht => ?_⟩⟩
  · obtain ⟨cfg, _, _⟩ := ctrlWritesDecodeByStartAndMode d
    exact ⟨_, _, cfg h0, by simp⟩
  · cases ht
    rfl

/-- StartWhileBusy (40_host_interface.md R104). -/
theorem startCommand_busy {s : State} (m : Mode) (ie : Bool) (h : s.busy = true) :
    startCommand m ie s = { s with ie := ie, cmderr := true } := if_pos h

/-- START on an idle block (40_host_interface.md R102, R103, R108): the operation begins, and with IN_LEN = 0 it has ended. -/
theorem startCommand_idle {s : State} (m : Mode) (ie : Bool) (h : s.busy = false) (ho : s.obuf = []) :
    startCommand m ie s = { s with
      mode := m, ie := ie, busy := decide (s.inLen ≠ 0#32), done := decide (s.inLen = 0#32), noout := false, inv := false,
      tail := false, lone := false, inCount := 0#32, outCount := 0#32, anyout := false, acc := 0#24, cnt := 0, term := false } := by
  rw [startCommand, if_neg (by simp [h]), beginOperation_cases m { s with ie := ie } ho]
  by_cases z : s.inLen = 0#32 <;> simp [z, State.startOperation]

/-- Settles O17: both commands are `startCommand`. -/
theorem startWhileBusyOnlySetsCmderr : Obligations.StartWhileBusyOnlySetsCmderr := fun _ ie _ h =>
  ⟨congrArg _ (startCommand_busy .encode ie h), congrArg _ (startCommand_busy .decode ie h)⟩

/-- Settles O18: the second branch of a CTRL write, and `startCommand` of Encode. -/
theorem encBeginsAnEncode : Obligations.EncBeginsAnEncode := by
  refine ⟨fun d h0 h1 => ?_, fun s ie _ => ⟨fun h => congrArg _ (startCommand_busy .encode ie h),
    fun h ho => congrArg _ (startCommand_idle .encode ie h ho)⟩⟩
  obtain ⟨_, enc, _⟩ := ctrlWritesDecodeByStartAndMode d
  exact ⟨_, enc h0 h1⟩

/-- Settles O19: the third branch of a CTRL write, and `startCommand` of Decode. -/
theorem decBeginsADecode : Obligations.DecBeginsADecode := by
  refine ⟨fun d h0 h1 => ?_, fun s ie _ => ⟨fun h => congrArg _ (startCommand_busy .decode ie h),
    fun h ho => congrArg _ (startCommand_idle .decode ie h ho)⟩⟩
  obtain ⟨_, _, dec⟩ := ctrlWritesDecodeByStartAndMode d
  exact ⟨_, dec h0 h1⟩

/-! ### Register writes -/

/-- WR_STATUS: a flag is cleared where a 1 is written to it (40_host_interface.md R105). -/
theorem execWrStatus_eq (d : Word) (s : State) : execWrStatus d s = .next { s with
    done := if d.getLsbD 1 then false else s.done, cmderr := if d.getLsbD 8 then false else s.cmderr } := by
  simp [execWrStatus, Bool.if_false_left, Bool.and_comm]

/-- Settles O20: the write of word index 1 (`execWrStatus_eq`); while BUSY DONE is 0 already by R39 item 2. -/
theorem writeStatusClearsDoneAndCmderr : Obligations.WriteStatusClearsDoneAndCmderr := by
  refine fun s d => ⟨decode_write 1#3 d, execWrStatus_eq d s, fun hides hb h8 => ?_, fun t ht h1 => ?_⟩
  · obtain ⟨hdone, _⟩ := hides hb
    have kept : (if d.getLsbD 1 then false else s.done) = s.done := by rw [hdone, ite_self]
    refine (execWrStatus_eq d s).trans ?_
    rw [kept, h8]
    rfl
  · cases (execWrStatus_eq d s).symm.trans ht
    simp [State.irq, h1]

/-- Settles O21: the write of word index 2, by the state of the FSM. -/
theorem writeInLenSetsTheLength : Obligations.WriteInLenSetsTheLength :=
  fun _ d => ⟨decode_write 2#3 d, fun h => congrArg _ (if_neg (by simp [h])), fun h => congrArg _ (if_pos h)⟩

/-- Settles O22: the writes of word indexes 3 to 7, each with the identity as its meaning. -/
theorem readOnlyWritesHaveNoEffect : Obligations.ReadOnlyWritesHaveNoEffect :=
  fun _ d => ⟨decode_write 3#3 d, rfl, decode_write 4#3 d, rfl, decode_write 5#3 d, rfl, decode_write 6#3 d, decode_write 7#3 d,
    fun _ => rfl⟩

end Sys2Proof.Machine

/-! ## Whole operations (70_reset_and_hazards.md R224)

At every point of a running operation the state fixes what the rest of the input will still deliver and what flags the operation will
end with: `Owes s out report` says so, for an Encode, for a Decode and for a Decode that has terminated. One byte through the datapath
moves part of what is owed into OBUF (`Owes.byte`), the end of input the rest of it (`Owes.ending`), and the transfers of a whole input
deliver all of it (`feed_delivers`). -/

namespace Sys2Proof.Machine

/-! ### The terms -/

/-- INV, TAIL and LONE (10_state.md R22). -/
def State.flags (s : State) : DecodeFlags := ⟨s.inv, s.tail, s.lone⟩

/-- The flags stay set once set (43_decode.md R175, R176, R178). -/
def DecodeFlags.or (f g : DecodeFlags) : DecodeFlags := ⟨f.inv || g.inv, f.tail || g.tail, f.lone || g.lone⟩

/-- Flags that are clear add nothing. -/
@[simp] theorem DecodeFlags.clear_or (f : DecodeFlags) : DecodeFlags.or ⟨false, false, false⟩ f = f := by simp [DecodeFlags.or]

/-- What a state in the middle of an operation owes for the rest of the input: the bytes it will still produce, `out`, and the flags it
will report, `report`. -/
inductive Owes (s : State) : (List Byte → List Byte) → (List Byte → DecodeFlags) → Prop where
  /-- An Encode whose group holds `bs` (42_encode.md R151 to R157). -/
  | encode {bs : List Byte} (hm : s.mode = .encode) (h : HoldsBytes s bs) : Owes s (fun rest => encodeText (bs ++ rest)) fun _ => s.flags
  /-- A Decode whose quad holds `vs` (43_decode.md R170 to R179). -/
  | decode {vs : List Sextet} (hm : s.mode = .decode) (ht : s.term = false) (h : HoldsValues s vs) :
    Owes s (decodeFrom vs) fun rest => s.flags.or (flagsFrom vs rest)
  /-- A Decode that has terminated (43_decode.md R178). -/
  | terminated (hm : s.mode = .decode) (ht : s.term = true) (h : Closed s) :
    Owes s (fun _ => []) fun rest => s.flags.or ⟨false, rest.any fun c => !isWs c, false⟩

/-- Encode or Decode of a whole input. -/
def codecOf : Mode → List Byte → List Byte
  | .encode => encodeText
  | .decode => decodeText

/-- The flags of a whole operation: an Encode sets none (42_encode.md R161). -/
def flagsOf : Mode → List Byte → DecodeFlags
  | .encode => fun _ => ⟨false, false, false⟩
  | .decode => flagsFrom []

/-- A running operation between two input bytes, with `n` bytes still to come and every output byte taken. -/
structure Between (s : State) (n : Nat) : Prop where
  busy : s.busy = true
  obuf : s.obuf = []
  left : s.inCount.toNat + n = s.inLen.toNat

/-- What completion leaves, in `t`, of an operation that from `s` on delivered `out` and reports `flags` (41_stream_ports.md R140). -/
structure Ends (s : State) (out : List Byte) (flags : DecodeFlags) (t : State) : Prop where
  busy : t.busy = false
  done : t.done = true
  noout : t.noout = (s.inLen != 0#32 && !(s.anyout || decide (out ≠ [])))
  flags_eq : t.flags = flags
  inCount : t.inCount = s.inLen
  outCount : t.outCount = s.outCount + BitVec.ofNat 32 out.length
  ie : t.ie = s.ie
  cmderr : t.cmderr = s.cmderr

/-! ### What is owed -/

section

variable {s : State} {bs : List Byte} {vs : List Sextet} {out : List Byte → List Byte} {report : List Byte → DecodeFlags}

/-- Only MODE, ACC, CNT, TERM and the flags count. -/
theorem Owes.of_same {u : State} (h : Owes s out report) (mode : u.mode = s.mode) (acc : u.acc = s.acc) (cnt : u.cnt = s.cnt)
    (term : u.term = s.term) (flags : u.flags = s.flags) : Owes u out report := by
  cases h with
  | encode hm h =>
    rw [← flags]
    exact .encode (mode.trans hm) ⟨cnt ▸ h.1, h.2.1, acc.trans h.2.2⟩
  | decode hm ht h =>
    rw [← flags]
    exact .decode (mode.trans hm) (term.trans ht) ⟨cnt ▸ h.1, acc.trans h.2⟩
  | terminated hm ht h =>
    rw [← flags]
    exact .terminated (mode.trans hm) (term.trans ht) ⟨acc.trans h.1, cnt.trans h.2⟩

/-- A closed group owes the whole codec, with the flags clear (40_host_interface.md R108). -/
theorem Owes.of_closed (h : Closed s) (ht : s.term = false) (hf : s.flags = ⟨false, false, false⟩) :
    Owes s (codecOf s.mode) (flagsOf s.mode) := by
  obtain ⟨ha, hc⟩ := h
  cases hm : s.mode with
  | encode =>
    have howes := Owes.encode (s := s) (bs := []) hm ⟨by simp [hc], by simp, ha⟩
    rwa [hf] at howes
  | decode =>
    have howes := Owes.decode (s := s) (vs := []) hm ht ⟨by simp [hc], ha⟩
    simp only [hf, DecodeFlags.clear_or] at howes
    exact howes

/-- The state `d` that a byte `b` leaves of a state that owed `out` and `report` has paid its part into OBUF and owes the rest. -/
abbrev Pays (b : Byte) (out : List Byte → List Byte) (report : List Byte → DecodeFlags) (d : State) : Prop :=
  ∃ out' report', Owes d out' report' ∧ ∀ rest, out (b :: rest) = d.obuf ++ out' rest ∧ report (b :: rest) = report' rest

/-- EncByte (42_encode.md R151, R152). -/
theorem encByte_pays (b : Byte) (hm : s.mode = .encode) (h : HoldsBytes s bs) (ho : s.obuf = []) :
    Pays b (fun rest => encodeText (bs ++ rest)) (fun _ => s.flags) (encByte b s) := by
  by_cases h2 : bs.length < 2
  · rw [encByte_opens b h h2]
    exact ⟨_, _, .encode hm (h.snoc b h2), fun rest => ⟨by simp [ho], rfl⟩⟩
  · have e2 : bs.length = 2 := le_antisymm h.2.1 (not_lt.mp h2)
    rw [encByte_emits b h e2]
    refine ⟨_, _, .encode (bs := []) hm ⟨rfl, by simp, rfl⟩, fun rest => ⟨?_, rfl⟩⟩
    simpa [ho] using encodeText_group_append (bs ++ [b]) rest (by simp [e2])

/-- A VALUE byte (43_decode.md R172, R173). -/
theorem decValue_pays {b : Byte} {v : Sextet} (hd : dlut b = .value v) (hm : s.mode = .decode) (ht : s.term = false) (h : HoldsValues s vs)
    (ho : s.obuf = []) :
    Pays b (decodeFrom vs) (fun rest => s.flags.or (flagsFrom vs rest)) (decValue v s) := by
  by_cases h3 : vs.length < 3
  · rw [decValue_adds v h h3]
    exact ⟨_, _, .decode hm ht (h.snoc v h3),
      fun rest => ⟨by simp [decodeFrom, hd, h3.ne, ho], by simp [flagsFrom, hd, h3.ne, State.flags]⟩⟩
  · have e3 : vs.length = 3 := le_antisymm h.length_le (not_lt.mp h3)
    rw [decValue_completes v h e3]
    exact ⟨_, _, .decode (vs := []) hm ht ⟨rfl, rfl⟩,
      fun rest => ⟨by simp [decodeFrom, hd, e3, ho], by simp [flagsFrom, hd, e3, State.flags]⟩⟩

/-- A PAD byte (43_decode.md R174, R176, R177). -/
theorem decPad_pays {b : Byte} (hd : dlut b = .pad) (hm : s.mode = .decode) (ht : s.term = false) (h : HoldsValues s vs)
    (ho : s.obuf = []) :
    Pays b (decodeFrom vs) (fun rest => s.flags.or (flagsFrom vs rest)) (decPad s) := by
  by_cases hc : s.cnt = 0
  · obtain rfl := h.cnt_eq_zero_iff.mp hc
    rw [decPad_empty hc]
    exact ⟨_, _, .terminated hm rfl ⟨h.2, hc⟩, fun rest => ⟨by simp [decodeFrom, hd, ho], by simp [flagsFrom, hd, State.flags]⟩⟩
  · have hv : vs ≠ [] := fun e => hc (h.cnt_eq_zero_iff.mpr e)
    rw [decPad_closes hc, closeQuad_emits h]
    exact ⟨_, _, .decode (vs := []) hm ht ⟨rfl, rfl⟩, fun rest => ⟨by simp [decodeFrom, hd, hv, ho],
      by simp [flagsFrom, hd, hv, State.flags, DecodeFlags.or, Bool.or_comm, Bool.or_assoc]⟩⟩

/-- An INVALID byte (43_decode.md R175). -/
theorem decInvalid_pays {b : Byte} (hd : dlut b = .invalid) (hm : s.mode = .decode) (ht : s.term = false) (h : HoldsValues s vs)
    (ho : s.obuf = []) :
    Pays b (decodeFrom vs) (fun rest => s.flags.or (flagsFrom vs rest)) (decInvalid b s) :=
  ⟨_, _, .decode hm ht h, fun rest => ⟨by simp [decodeFrom, hd, ho],
    by simp [flagsFrom, hd, State.flags, DecodeFlags.or, Bool.or_comm, Bool.or_left_comm]⟩⟩

/-- A byte after termination (43_decode.md R178). -/
theorem afterTerm_pays (b : Byte) (hm : s.mode = .decode) (ht : s.term = true) (h : Closed s) (ho : s.obuf = []) :
    Pays b (fun _ => []) (fun rest => s.flags.or ⟨false, rest.any fun c => !isWs c, false⟩) (afterTerm b s) :=
  ⟨_, _, .terminated hm ht h, fun rest => ⟨by simp [ho], by simp [State.flags, DecodeFlags.or, Bool.or_assoc]⟩⟩

/-- One byte through the datapath (41_stream_ports.md R132). -/
theorem Owes.byte (b : Byte) (h : Owes s out report) (ho : s.obuf = []) : Pays b out report (datapathByte b s) := by
  cases h with
  | encode hm h =>
    rw [datapathByte_encode b hm]
    exact encByte_pays b hm h ho
  | decode hm ht h =>
    rw [datapathByte_decode b hm]
    cases hd : dlut b with
    | value v =>
      rw [decByte_value ht hd]
      exact decValue_pays hd hm ht h ho
    | pad =>
      rw [decByte_pad ht hd]
      exact decPad_pays hd hm ht h ho
    | invalid =>
      rw [decByte_invalid ht hd]
      exact decInvalid_pays hd hm ht h ho
  | terminated hm ht h =>
    rw [datapathByte_decode b hm, decByte_afterTerm b ht]
    exact afterTerm_pays b hm ht h ho

/-- The end of input produces all that is still owed (41_stream_ports.md R139). -/
theorem Owes.ending (h : Owes s out report) : (endOfInput s).obuf = s.obuf ++ out [] ∧ (endOfInput s).flags = report [] := by
  cases h with
  | encode hm h => simp [endOfInput_encode hm, encEnd_pads h, State.flags]
  | decode hm ht h =>
    rw [endOfInput_decode hm, decEnd_closes h fun e => absurd (ht.symm.trans e) (by decide)]
    simp [decodeFrom, flagsFrom, State.flags, DecodeFlags.or]
  | terminated hm ht h => simp [endOfInput_of_closed h, DecodeFlags.or, State.flags]

/-- The last byte, with the end of input after it, produces all that is owed (41_stream_ports.md R138). -/
theorem Owes.last (b : Byte) (h : Owes s out report) (ho : s.obuf = []) :
    (endOfInput (datapathByte b s)).obuf = out [b] ∧ (endOfInput (datapathByte b s)).flags = report [b] := by
  obtain ⟨out', report', hd, hpay⟩ := h.byte b ho
  obtain ⟨hout, hreport⟩ := hpay []
  rw [hout, hreport]
  exact hd.ending

/-! ### How the transfers end -/

/-- Only IN_LEN, ANYOUT, OUT_COUNT, IE and CMDERR of the state before count. -/
theorem Ends.of_same {s u t : State} {out : List Byte} {flags : DecodeFlags} (h : Ends u out flags t) (inLen : u.inLen = s.inLen)
    (anyout : u.anyout = s.anyout) (outCount : u.outCount = s.outCount) (ie : u.ie = s.ie) (cmderr : u.cmderr = s.cmderr) :
    Ends s out flags t :=
  ⟨h.busy, h.done, inLen ▸ anyout ▸ h.noout, h.flags_eq, inLen ▸ h.inCount, outCount ▸ h.outCount, ie ▸ h.ie, cmderr ▸ h.cmderr⟩

/-- What OBUF held and what came after it. -/
theorem Drained.ends_append {d u t : State} {more : List Byte} {flags : DecodeFlags} (hd : Drained d u) (h : Ends u more flags t) :
    Ends d (d.obuf ++ more) flags t where
  busy := h.busy
  done := h.done
  noout := by
    have hne : decide (d.obuf ++ more ≠ []) = (decide (d.obuf ≠ []) || decide (more ≠ [])) := by
      rw [← Bool.decide_or, decide_eq_decide, Ne, List.append_eq_nil_iff, not_and_or]
    rw [h.noout, hd.inLen, hd.anyout, hne, Bool.or_assoc]
  flags_eq := h.flags_eq
  inCount := h.inCount.trans hd.inLen
  outCount := by rw [h.outCount, hd.outCount, BitVec.add_assoc, ← BitVec.ofNat_add, List.length_append]
  ie := h.ie.trans hd.ie
  cmderr := h.cmderr.trans hd.cmderr

/-- Once the input has ended, taking what is left in OBUF, if anything, ends the operation (41_stream_ports.md R140). -/
theorem drain_checkComplete {e : State} (hb : e.busy = true) (hc : e.inCount = e.inLen) :
    ∃ t, drain (checkComplete e).obuf.length (checkComplete e) = .next (e.obuf, t) ∧ Ends e e.obuf e.flags t := by
  by_cases ho : e.obuf = []
  · refine ⟨_, ho.symm ▸ drain_empty ((checkComplete_obuf e).trans ho), ?_⟩
    rw [checkComplete_fires ⟨hb, hc, ho⟩]
    constructor <;> simp [ho, hc, State.nooutAtCompletion, State.flags]
  · rw [checkComplete_idle fun h => ho h.2.2]
    obtain ⟨t, hd, d⟩ := drain_delivers _ e rfl hb
    obtain ⟨busy, done, noout⟩ := d.ends hc ho
    exact ⟨t, hd, busy, done, by simp [noout, ho], by simp [State.flags, d.inv, d.tail, d.lone], d.inCount.trans hc, d.outCount, d.ie,
      d.cmderr⟩

/-- Between two bytes in_ready is 1 (41_stream_ports.md R131). -/
theorem Between.inReady {s : State} {n : Nat} (h : Between s (n + 1)) : s.inReady = true :=
  (inReady_iff s).mpr ⟨h.busy, fun e => by simpa [e] using h.left, h.obuf⟩

/-- Fed `input`, the block delivers all it owes for it and the operation ends. -/
abbrev Delivers (input : List Byte) (s : State) (out : List Byte → List Byte) (report : List Byte → DecodeFlags) : Prop :=
  ∃ t, feed input s = .next (out input, t) ∧ Ends s (out input) (report input) t

/-- The last byte of the input delivers what is owed and ends the operation (41_stream_ports.md R138 to R140). -/
theorem feed_last {b : Byte} (hs : Between s 1) (h : Owes s out report) : Delivers [b] s out report := by
  have hlast : s.openStep.inCount + 1#32 = s.openStep.inLen := by
    have hl := hs.left
    rw [State.openStep_inCount, State.openStep_inLen]
    bv_omega
  have hr : s.openStep.inReady = true := hs.inReady
  have hpush := execPush_ends b hr hlast
  have howes : Owes { s.openStep with inCount := s.openStep.inLen } out report := h.of_same rfl rfl rfl rfl rfl
  obtain ⟨hout, hflags⟩ := howes.last b hs.obuf
  obtain ⟨t, hdrain, hends⟩ :=
    drain_checkComplete (e := endOfInput (datapathByte b { s.openStep with inCount := s.openStep.inLen })) (by simp [hs.busy]) (by simp)
  rw [hout] at hdrain
  rw [hout, hflags] at hends
  have hfeed := feed_cons hpush hdrain (rfl : feed [] t = .next ([], t))
  rw [List.append_nil] at hfeed
  exact ⟨t, hfeed, hends.of_same (by simp) (by simp) (by simp) (by simp) (by simp)⟩

/-- A byte that is not the last one delivers its part; the operation goes on between two bytes and owes the rest (41_stream_ports.md R132,
R137). -/
theorem feed_next {b : Byte} {rest : List Byte} {n : Nat} (hs : Between s (n + 2)) (h : Owes s out report)
    (hrest : ∀ {u out' report'}, Between u (n + 1) → Owes u out' report' → Delivers rest u out' report') :
    Delivers (b :: rest) s out report := by
  have hleft := hs.left
  have hmore : s.openStep.inCount + 1#32 ≠ s.openStep.inLen := by
    rw [State.openStep_inCount, State.openStep_inLen]
    bv_omega
  have hr : s.openStep.inReady = true := hs.inReady
  have hpush := execPush_continues b hr hmore
  have howes : Owes { s.openStep with inCount := s.openStep.inCount + 1#32 } out report := h.of_same rfl rfl rfl rfl rfl
  obtain ⟨out', report', hd, hpay⟩ := howes.byte b hs.obuf
  obtain ⟨u, hdrain, d⟩ :=
    drain_delivers _ (datapathByte b { s.openStep with inCount := s.openStep.inCount + 1#32 }) rfl (by simp [hs.busy])
  obtain ⟨hbusy, _⟩ := d.goesOn (.inl (by simpa using hmore))
  have hu : Between u (n + 1) := by
    refine ⟨hbusy.trans (by simp [hs.busy]), d.obuf, ?_⟩
    simp only [d.inCount, d.inLen, datapathByte_inCount, datapathByte_inLen, State.openStep_inCount, State.openStep_inLen]
    bv_omega
  have howes' : Owes u out' report' := hd.of_same d.mode d.acc d.cnt d.term (by simp [State.flags, d.inv, d.tail, d.lone])
  obtain ⟨t, hfeed, hends⟩ := hrest hu howes'
  obtain ⟨hout, hreport⟩ := hpay rest
  rw [Delivers, hout, hreport]
  exact ⟨t, feed_cons hpush hdrain hfeed, (d.ends_append hends).of_same (by simp) (by simp) (by simp) (by simp) (by simp)⟩

/-- A running operation that is fed its whole input delivers all it owes and ends (41_stream_ports.md R136, R137). -/
theorem feed_delivers (b : Byte) (rest : List Byte) (hs : Between s (rest.length + 1)) (h : Owes s out report) :
    Delivers (b :: rest) s out report := by
  induction rest generalizing b s out report with
  | nil => exact feed_last hs h
  | cons c rest ih => exact feed_next hs h (ih c)

end

/-! ### The whole sequence -/

/-- An event that delivers nothing. -/
theorem event_next {i : Instr} {s t : State} (h : exec i s.openStep = .next t) (ho : t.outResp = none) :
    event i s = .next ([], t) := by
  simp [event, h, ho]

/-- After a part that delivers nothing comes the next part. -/
theorem Transfer.andThen_nothing (t : State) (k : State → Transfer) : Transfer.andThen (.next ([], t)) k = k t := by
  cases h : k t <;> simp [Transfer.andThen, h]

/-- The block after SETLEN `n` and START (70_reset_and_hazards.md R224 items 2 and 3). -/
def State.started (s : State) (m : Mode) (ie : Bool) (n : Word) : State := startCommand m ie { s.openStep with inLen := n }.openStep

/-- On an idle block with nothing to deliver: Begin, with the length just set (40_host_interface.md R106, R108). -/
theorem started_eq {s : State} (m : Mode) (ie : Bool) (n : Word) (hb : s.busy = false) (ho : s.obuf = []) :
    s.started m ie n = { s.openStep.openStep with
      mode := m, ie := ie, busy := decide (n ≠ 0#32), done := decide (n = 0#32), noout := false, inv := false, tail := false,
      lone := false, inLen := n, inCount := 0#32, outCount := 0#32, anyout := false, acc := 0#24, cnt := 0, term := false } :=
  startCommand_idle m ie hb ho

/-- SETLEN and START, then the transfers. -/
theorem operate_eq_feed {start : Instr} {m : Mode} {ie : Bool} {s : State} (input : List Byte)
    (hstart : ∀ u, exec start u = .next (startCommand m ie u)) (hb : s.busy = false) (ho : s.obuf = []) :
    operate start input s = feed input (s.started m ie (BitVec.ofNat 32 input.length)) := by
  have hset : event (.wrInLen (BitVec.ofNat 32 input.length)) s =
      .next ([], { s.openStep with inLen := BitVec.ofNat 32 input.length }) :=
    event_next (congrArg _ (if_neg (by simp [hb]))) rfl
  have hgo : event start { s.openStep with inLen := BitVec.ofNat 32 input.length } =
      .next ([], s.started m ie (BitVec.ofNat 32 input.length)) :=
    event_next (hstart _) (by rw [started_eq m ie _ hb ho]; rfl)
  rw [operate, hset, Transfer.andThen_nothing, hgo, Transfer.andThen_nothing]

/-- The operation on a whole input, from right after its START. -/
theorem started_delivers {s : State} (m : Mode) (ie : Bool) {input : List Byte} (hb : s.busy = false) (ho : s.obuf = [])
    (hlen : input.length < 2 ^ 32) :
    Delivers input (s.started m ie (BitVec.ofNat 32 input.length)) (codecOf m) (flagsOf m) := by
  rw [started_eq m ie _ hb ho]
  cases input with
  | nil =>
    have hout : codecOf m [] = [] := by cases m <;> rfl
    have hflags : flagsOf m [] = ⟨false, false, false⟩ := by cases m <;> rfl
    rw [Delivers, hout, hflags]
    exact ⟨_, rfl, by constructor <;> simp [State.flags]⟩
  | cons b rest =>
    rw [List.length_cons] at hlen ⊢
    have hn : (BitVec.ofNat 32 (rest.length + 1)).toNat = rest.length + 1 := Nat.mod_eq_of_lt hlen
    have hne : BitVec.ofNat 32 (rest.length + 1) ≠ 0#32 := fun e => by simp [e] at hn
    exact feed_delivers b rest ⟨by simp [hne], ho, by simp [hn]⟩ (.of_closed ⟨rfl, rfl⟩ rfl rfl)

/-- A whole operation on an idle block delivers the codec of its input, completes and reports (41_stream_ports.md R136 to R141). -/
theorem operate_delivers {start : Instr} {m : Mode} {ie : Bool} {s : State} {input : List Byte}
    (hstart : ∀ u, exec start u = .next (startCommand m ie u)) (hb : s.busy = false) (hinv : Invariant s)
    (hlen : input.length < 2 ^ 32) :
    ∃ t, operate start input s = .next (codecOf m input, t) ∧ t.busy = false ∧ t.done = true ∧
      t.noout = decide (input ≠ [] ∧ codecOf m input = []) ∧ t.flags = flagsOf m input ∧
      t.inCount = BitVec.ofNat 32 input.length ∧ t.outCount = BitVec.ofNat 32 (codecOf m input).length ∧ t.ie = ie ∧
      t.cmderr = s.cmderr := by
  obtain ⟨ho, _⟩ := hinv.idle_empty hb
  obtain ⟨t, hfeed, hends⟩ := started_delivers m ie hb ho hlen
  rw [started_eq m ie _ hb ho] at hends
  refine ⟨t, (operate_eq_feed input hstart hb ho).trans hfeed, hends.busy, hends.done, ?_, hends.flags_eq, hends.inCount, ?_, hends.ie,
    hends.cmderr⟩
  · have hzero : BitVec.ofNat 32 input.length = 0#32 ↔ input = [] := by
      rw [← List.length_eq_zero_iff, ← BitVec.toNat_inj, BitVec.toNat_ofNat, Nat.mod_eq_of_lt hlen]
      rfl
    simp [hends.noout, bne, beq_eq_decide, hzero]
  · simpa using hends.outCount

/-- Settles O49: `operate_delivers`; an Encode of a non-empty input delivers something, so NOOUT stays 0, and it reports no flag. -/
theorem encodeOperationDeliversTheText : Obligations.EncodeOperationDeliversTheText := by
  intro s ie ign input hb hinv hlen
  obtain ⟨t, hop, hbusy, hdone, hnoout, hflags, hrest⟩ :=
    operate_delivers (start := .enc ie ign) (m := .encode) (fun _ => rfl) hb hinv hlen
  have hsome : ¬ (input ≠ [] ∧ encodeText input = []) := fun ⟨hne, he⟩ => encodeText_ne_nil input hne he
  obtain ⟨hinv', htail, hlone⟩ := DecodeFlags.mk.inj hflags
  exact ⟨t, hop, hbusy, hdone, hnoout.trans (decide_eq_false hsome), hinv', htail, hlone, hrest⟩

/-- Settles O50: `operate_delivers` of Decode. -/
theorem decodeOperationDeliversTheBytes : Obligations.DecodeOperationDeliversTheBytes := fun _ ie ign _ hb hinv hlen =>
  operate_delivers (start := .dec ie ign) (m := .decode) (fun _ => rfl) hb hinv hlen

end Sys2Proof.Machine

/-! ## The stream ports (41_stream_ports.md R130 to R144) -/

namespace Sys2Proof.Machine

/-! ### Transfers that are not enabled, and the PULL that is -/

/-- in_ready is 0 while IDLE, after the last input byte and with output pending (41_stream_ports.md R131). -/
theorem inReady_eq_false_iff (s : State) : s.inReady = false ↔ s.busy = false ∨ s.inCount = s.inLen ∨ s.obuf ≠ [] := by
  rw [← Bool.not_eq_true, inReady_iff, not_and_or, not_and_or, Bool.not_eq_true, not_not]

/-- out_valid (41_stream_ports.md R134). -/
theorem outValid_iff (s : State) : s.outValid = true ↔ s.obuf ≠ [] := by
  simp [State.outValid]

/-- The word of a PUSH: its fixed top bits and the byte (30_encoding.md R74). -/
theorem pushWord_eq (b : Byte) : 0x80000000#32 ++ b = makeHtw 0b10#2 0#3 (b.setWidth 32) := by
  revert b
  decide

/-- Settles O24: in_ready or out_valid is 0, so the transfer has no step and its word waits. -/
theorem transfersNotEnabledWait : Obligations.TransfersNotEnabledWait := by
  refine ⟨fun s b h => execPush_waits b ((inReady_eq_false_iff s).mpr h), fun _ => execPull_waits, fun s b rest hin h => ?_,
    fun s rest hin ho => ?_⟩
  · have hd : decode (0x80000000#32 ++ b) = .ok (.push b) := (pushWord_eq b).symm ▸ decode_push b
    exact step_waits hin hd (by simp [waits, (inReady_eq_false_iff s).mpr h])
  · exact step_waits hin decode_pull (by simp [waits, State.outValid, ho])

/-- Settles O25: the two cases of `deliverByte`. -/
theorem pullDeliversTheHead : Obligations.PullDeliversTheHead := by
  refine fun s b rest ho => ⟨fun h => ?_, fun hb hc hr => ?_⟩
  · exact (execPull_delivers ho).trans (congrArg _ (deliverByte_continues h))
  · subst hr
    exact (execPull_delivers ho).trans (congrArg _ (deliverByte_ends hb hc))

/-! ### What a PUSH leaves in OBUF -/

/-- The end of PUSH leaves output only with the group closed (41_stream_ports.md R138, R143). -/
theorem finishInput_closed {s : State} (h : Fed s) (ho : (finishInput s).obuf ≠ []) : Closed (finishInput s) := by
  by_cases hc : s.inCount = s.inLen
  · obtain ⟨hclosed, _⟩ := endOfInput_closes h
    rw [finishInput, if_pos hc, Closed, checkComplete_acc, checkComplete_cnt]
    exact hclosed
  · rw [finishInput, if_neg hc, checkComplete_obuf] at ho
    rw [finishInput, if_neg hc, Closed, checkComplete_acc, checkComplete_cnt]
    exact h.closed ho

/-- Settles O41: the invariants bound OBUF (`exec_invariant`), and the datapath and the end of input emit only what they close. -/
theorem outputBufferNeverOverflows : Obligations.OutputBufferNeverOverflows := by
  intro s t b hinv hr ht
  obtain ⟨⟨_, _, _, ⟨hbuf, _⟩, _⟩, _⟩ := exec_invariant hinv ht
  refine ⟨hbuf, fun ho => ?_⟩
  obtain ⟨hb, _, hempty⟩ := (inReady_iff s).mp hr
  cases (execPush_accepts b hr).symm.trans ht
  exact finishInput_closed (datapathByte_fed b (hinv.running hb).legal hempty) ho

/-- Settles O42: with OBUF empty the input cannot have ended, by EndSettled. -/
theorem aRunningOperationCanProgress : Obligations.ARunningOperationCanProgress := by
  intro s hs hb
  obtain ⟨_, hend⟩ := hs.invariant
  by_cases ho : s.obuf = []
  · exact .inl ((inReady_iff s).mpr ⟨hb, fun hc => (hend hb hc).1 ho, ho⟩)
  · exact .inr ((outValid_iff s).mpr ho)

/-! ### NOOUT -/

/-- The last byte of an Encode leaves characters to deliver (42_encode.md R160). -/
theorem acceptByte_encode_last {s : State} (b : Byte) (hinv : Invariant s) (hr : s.inReady = true) (hm : s.mode = .encode)
    (hlast : s.inCount + 1#32 = s.inLen) : (acceptByte b s).obuf ≠ [] := by
  obtain ⟨hb, _, ho⟩ := (inReady_iff s).mp hr
  rcases groupLegal_cases (hinv.running hb).legal with ⟨_, bs, h⟩ | ⟨hd, _⟩
  · have howes : Owes { s with inCount := s.inLen } _ _ := .encode hm h
    obtain ⟨hout, _⟩ := howes.last b ho
    rw [Host.Outcome.next.inj ((execPush_accepts b hr).symm.trans (execPush_ends b hr hlast)), checkComplete_obuf, hout]
    exact encodeText_ne_nil _ (by simp)
  · cases hm.symm.trans hd

/-- On an idle block that meets the invariants no transaction sets NOOUT (41_stream_ports.md R141). -/
theorem exec_noout_idle {i : Instr} {s t : State} (hinv : Invariant s) (hb : s.busy = false) (h : exec i s = .next t)
    (hs : s.noout = false) : t.noout = false := by
  obtain ⟨ho, _⟩ := hinv.idle_empty hb
  have started {m : Mode} {ie : Bool} (e : startCommand m ie s = t) : t.noout = false := by
    subst e
    rw [startCommand_idle m ie hb ho]
  cases i with
  | enc ie ign => exact started (Host.Outcome.next.inj h)
  | dec ie ign => exact started (Host.Outcome.next.inj h)
  | wrInLen d =>
    cases h
    rw [if_neg (by simp [hb])]
    exact hs
  | push b => exact exec_transfer_idle hinv hb (.inl ⟨b, rfl⟩) h ▸ hs
  | pull => exact exec_transfer_idle hinv hb (.inr rfl) h ▸ hs
  | cfg | wrStatus | rdCtrl | rdStatus | rdInLen | rdInCount | rdOutCount | rdId | rdRsvd | wrInCount | wrOutCount | wrId | wrRsvd =>
    cases h
    exact hs

/-- A PULL that completes an operation has delivered a byte (41_stream_ports.md R135). -/
theorem execPull_anyout {s t : State} (h : execPull s = .next t) (hs : s.busy = true) (ht : t.busy = false) : t.anyout = true := by
  unfold execPull at h
  split at h <;> cases h
  · simp [deliverByte]
  · cases hs.symm.trans ht

/-- A PUSH that completes an operation is of a Decode: the last byte of an Encode leaves output (42_encode.md R160). -/
theorem execPush_completes_decode {s t : State} {b : Byte} (hinv : Invariant s) (h : execPush b s = .next t) (hs : s.busy = true)
    (ht : t.busy = false) (hc : t.inCount = t.inLen) (ho : t.obuf = []) : s.mode = .decode := by
  cases hm : s.mode with
  | decode => rfl
  | encode =>
    rcases execPush_enabled h with rfl | hr
    · cases hs.symm.trans ht
    · cases (execPush_accepts b hr).symm.trans h
      exact absurd ho (acceptByte_encode_last b hinv hr hm (by simpa using hc))

/-- Settles O46: NOOUT is 0 while an operation runs, so it is set only with completion, by a PUSH of a Decode: a PULL has delivered a byte
and the last byte of an Encode leaves output. -/
theorem nooutOnlyAfterAnEmptyDecode : Obligations.NooutOnlyAfterAnEmptyDecode := by
  intro i s t hinv h hs ht
  have hb : s.busy = true := by
    by_contra hb
    cases (exec_noout_idle hinv (by simpa using hb) h hs).symm.trans ht
  have hbusy : t.busy = false := by
    by_contra hbusy
    cases ((exec_invariant hinv h).running (by simpa using hbusy)).noout.symm.trans ht
  obtain ⟨⟨_, rfl, htransfer⟩, hc, ho, _, hnoout⟩ := (exec_moves h).completes hb hbusy
  obtain ⟨hlen, hany⟩ : t.inLen ≠ 0#32 ∧ t.anyout = false := by simpa [ht] using hnoout
  rcases htransfer with ⟨b, rfl⟩ | rfl
  · exact ⟨execPush_completes_decode hinv h hb hbusy hc ho, hb, hbusy, hlen, hany, b, rfl⟩
  · cases hany.symm.trans (execPull_anyout h hb hbusy)

/-! ### The handshake -/

/-- With output pending no transaction but PULL touches OBUF (41_stream_ports.md R131, R134). -/
theorem exec_obuf {i : Instr} {s t : State} (ho : s.obuf ≠ []) (hi : i ≠ .pull) (h : exec i s = .next t) : t.obuf = s.obuf := by
  have started (m : Mode) (ie : Bool) : (startCommand m ie s).obuf = s.obuf := by
    unfold startCommand
    split
    · rfl
    · rw [beginOperation_eq, checkComplete_obuf, State.startOperation_obuf]
  cases i with
  | enc ie ign =>
    cases h
    exact started .encode ie
  | dec ie ign =>
    cases h
    exact started .decode ie
  | wrInLen d =>
    cases h
    split <;> rfl
  | push b =>
    cases (execPush_waits b ((inReady_eq_false_iff s).mpr (.inr (.inr ho)))).symm.trans h
    rfl
  | pull => exact absurd rfl hi
  | cfg | wrStatus | rdCtrl | rdStatus | rdInLen | rdInCount | rdOutCount | rdId | rdRsvd | wrInCount | wrOutCount | wrId | wrRsvd =>
    cases h
    rfl

/-- out_data while out_valid = 1 (41_stream_ports.md R134). -/
theorem outData_of_cons {s : State} {b : Byte} {rest : List Byte} (h : s.obuf = b :: rest) : s.outData = b := by
  simp [State.outData, h]

/-- Settles O48: the ports are these functions of the state, and OBUF stays as it is until a PULL (`exec_obuf`). -/
theorem handshakePortsFollowTheState : Obligations.HandshakePortsFollowTheState := by
  refine fun s => ⟨by rw [inReady_iff, List.length_eq_zero_iff], by rw [outValid_iff, List.length_pos_iff], fun i t hv hi h => ?_⟩
  have hkept := exec_obuf ((outValid_iff s).mp hv) hi h
  obtain ⟨b, rest, ho⟩ := List.exists_cons_of_ne_nil ((outValid_iff s).mp hv)
  rw [outValid_iff, hkept, outData_of_cons ho, outData_of_cons (hkept.trans ho)]
  simp [ho]

end Sys2Proof.Machine

/-! ## Encode (42_encode.md R150 to R160) and the frame of PUSH (41_stream_ports.md R132) -/

namespace Sys2Proof.Machine

/-! ### Encode bytes -/

/-- The last byte of an Encode and the end of input after it close the group, whatever it holds (42_encode.md R151 to R157). -/
theorem endOfInput_encByte {s : State} {bs : List Byte} (b : Byte) (hm : s.mode = .encode) (h : HoldsBytes s bs) :
    endOfInput (encByte b s) = { s with acc := 0#24, cnt := 0, obuf := s.obuf ++ encodeText (bs ++ [b]) } := by
  by_cases h2 : bs.length < 2
  · rw [endOfInput_encode (by simpa using hm), encByte_opens b h h2, encEnd_pads (h.snoc b h2)]
  · rw [encByte_emits b h (le_antisymm h.2.1 (not_lt.mp h2)), endOfInput_of_closed ⟨rfl, rfl⟩]

/-- Settles O26: the byte goes through EncByte and ends nothing. -/
theorem encodePushTakesOneByte : Obligations.EncodePushTakesOneByte := by
  intro s b bs hb hm ho h hc hmore
  have hpush : exec (.push b) s = .next (encByte b { s with inCount := s.inCount + 1#32 }) :=
    (execPush_continues b ((inReady_iff s).mpr ⟨hb, hc, ho⟩) hmore).trans (congrArg _ (datapathByte_encode b hm))
  refine ⟨fun h2 => hpush.trans (congrArg _ (encByte_opens b h h2)), fun h2 => ?_⟩
  rw [hpush, encByte_emits (s := { s with inCount := s.inCount + 1#32 }) b h h2, ho, List.nil_append]

/-- Settles O27: the group closes (`endOfInput_encByte`), and its characters keep the operation running. -/
theorem lastEncodePushPadsTheQuad : Obligations.LastEncodePushPadsTheQuad := by
  intro s b bs hb hm ho h hc hlast
  have hpush : exec (.push b) s = .next (checkComplete (endOfInput (encByte b { s with inCount := s.inLen }))) :=
    (execPush_ends b ((inReady_iff s).mpr ⟨hb, hc, ho⟩) hlast).trans
      (congrArg (fun d => Host.Outcome.next (checkComplete (endOfInput d))) (datapathByte_encode b hm))
  have hout : encodeText (bs ++ [b]) ≠ [] := encodeText_ne_nil _ (by simp)
  rw [hpush, endOfInput_encByte (s := { s with inCount := s.inLen }) b hm h, ho, List.nil_append, checkComplete_idle fun hf => hout hf.2.2]

/-! ### What no PUSH changes -/

/-- An Encode PUSH leaves TERM and the flags of a Decode (42_encode.md R150). -/
theorem acceptByte_encode_frame {s : State} (b : Byte) (hm : s.mode = .encode) :
    (acceptByte b s).term = s.term ∧ (acceptByte b s).inv = s.inv ∧ (acceptByte b s).tail = s.tail ∧
      (acceptByte b s).lone = s.lone := by
  rw [acceptByte, datapathByte_encode (s := { s with inCount := s.inCount + 1#32 }) b hm, finishInput,
    endOfInput_encode (by simpa using hm)]
  split <;> simp

/-- After termination a byte is discarded (43_decode.md R178). -/
theorem datapathByte_terminated {s : State} (b : Byte) (hm : s.mode = .decode) (ht : s.term = true) :
    datapathByte b s = afterTerm b s :=
  (datapathByte_decode b hm).trans (decByte_afterTerm b ht)

/-- After termination the end of input closes nothing (43_decode.md R179). -/
theorem endOfInput_terminated {s : State} (hm : s.mode = .decode) (ht : s.term = true) : endOfInput s = s :=
  (endOfInput_decode hm).trans (if_neg fun hopen => absurd (ht.symm.trans hopen.1) (by decide))

/-- A PUSH after termination (41_stream_ports.md R132, 43_decode.md R178). -/
theorem acceptByte_terminated {s : State} (b : Byte) (hm : s.mode = .decode) (ht : s.term = true) :
    acceptByte b s = checkComplete (afterTerm b { s with inCount := s.inCount + 1#32 }) := by
  rw [acceptByte, datapathByte_terminated (s := { s with inCount := s.inCount + 1#32 }) b hm ht, finishInput,
    endOfInput_terminated (s := afterTerm b { s with inCount := s.inCount + 1#32 }) hm ht, ite_self]

/-- DONE and NOOUT change only when the operation completes (41_stream_ports.md R140). -/
theorem acceptByte_completes {s : State} {b : Byte}
    (h : (acceptByte b s).done ≠ s.done ∨ (acceptByte b s).noout ≠ s.noout) : s.busy = true ∧ (acceptByte b s).busy = false := by
  rcases finishInput_cases (datapathByte b { s with inCount := s.inCount + 1#32 }) with ⟨_, hd, hn⟩ | ⟨hb, _, _, hidle, _⟩
  · exact absurd h (by simp [acceptByte, hd, hn])
  · exact ⟨by simpa using hb, hidle⟩

/-- Settles O32: a PUSH that is not enabled changes nothing; what an accepted one leaves is said field by field, for an Encode, after
termination and for completion. -/
theorem pushFrame : Obligations.PushFrame := by
  intro s t b h
  rcases execPush_enabled h with rfl | hr
  · simp
  · cases (execPush_accepts b hr).symm.trans h
    refine ⟨acceptByte_mode s b, acceptByte_ie s b, acceptByte_cmderr s b, acceptByte_inLen s b, acceptByte_outCount s b,
      acceptByte_anyout s b, acceptByte_inputs s b, acceptByte_regResp s b, acceptByte_outResp s b, acceptByte_tick s b,
      acceptByte_encode_frame b, fun hm ht => ?_, acceptByte_completes⟩
    simp [acceptByte_terminated b hm ht, ht]

/-! ### The text of an Encode -/

/-- Data characters only (30_encoding.md R80). -/
abbrev DataChars (cs : List Byte) : Prop := ∀ c ∈ cs, ∃ v, c = elut v

/-- `=` is no data character (30_encoding.md R82). -/
theorem DataChars.pad_not_mem {cs : List Byte} (h : DataChars cs) : padChar ∉ cs := by
  intro hp
  obtain ⟨v, hv⟩ := h _ hp
  cases (dlut_elut v).symm.trans ((dlut_pad_iff _).mpr hv.symm)

/-- The first two characters of a quad are data, whatever follows them (42_encode.md R152 to R154). -/
theorem dataChars_firstTwo (a b : Byte) : DataChars [firstChar a, secondChar a b] := by
  simp only [DataChars, List.forall_mem_cons]
  exact ⟨⟨_, rfl⟩, ⟨_, rfl⟩, by simp⟩

/-- A full group gives four data characters (42_encode.md R152). -/
theorem dataChars_group (a b c : Byte) : DataChars (encodeText [a, b, c]) := by
  simp only [DataChars, encodeText, List.append_nil, List.forall_mem_cons]
  exact ⟨⟨_, rfl⟩, ⟨_, rfl⟩, ⟨_, rfl⟩, ⟨_, rfl⟩, by simp⟩

/-- An Encode is the data characters of its full groups, then the quad of what is left (42_encode.md R151 to R156). -/
theorem encodeText_quads (input : List Byte) :
    ∃ quads left, encodeText input = quads ++ encodeText left ∧ DataChars quads ∧ left.length = input.length % 3 := by
  induction input using encodeText.induct with
  | case1 => exact ⟨[], [], rfl, by simp [DataChars], rfl⟩
  | case2 a => exact ⟨[], [a], rfl, by simp [DataChars], rfl⟩
  | case3 a b => exact ⟨[], [a, b], rfl, by simp [DataChars], rfl⟩
  | case4 a b c rest ih =>
    obtain ⟨quads, left, hquads, hchars, hleft⟩ := ih
    refine ⟨encodeText [a, b, c] ++ quads, left, ?_, List.forall_mem_append.mpr ⟨dataChars_group a b c, hchars⟩, ?_⟩
    · rw [List.append_assoc, ← hquads]
      exact encodeText_group_append [a, b, c] rest rfl
    · exact hleft.trans (Nat.add_mod_right rest.length 3).symm

/-- Four characters a group, a partial group included (42_encode.md R158). -/
theorem encodeText_length (input : List Byte) : (encodeText input).length = 4 * ((input.length + 2) / 3) := by
  induction input using encodeText.induct with
  | case1 | case2 | case3 => simp [encodeText]
  | case4 a b c rest ih =>
    simp only [encodeText, List.length_append, List.length_cons, List.length_nil, ih]
    omega

/-- Every byte of an Encode's output is a data character or `=` (42_encode.md R160). -/
theorem encodeText_alphabet (input : List Byte) : ∀ c ∈ encodeText input, c = padChar ∨ ∃ v, c = elut v := by
  induction input using encodeText.induct with
  | case1 => simp [encodeText]
  | case2 a =>
    simp only [encodeText, List.forall_mem_cons]
    exact ⟨.inr ⟨_, rfl⟩, .inr ⟨_, rfl⟩, .inl trivial, .inl trivial, by simp⟩
  | case3 a b =>
    simp only [encodeText, List.forall_mem_cons]
    exact ⟨.inr ⟨_, rfl⟩, .inr ⟨_, rfl⟩, .inr ⟨_, rfl⟩, .inl trivial, by simp⟩
  | case4 a b c rest ih =>
    rw [show a :: b :: c :: rest = [a, b, c] ++ rest from rfl, encodeText_group_append _ _ rfl]
    exact List.forall_mem_append.mpr ⟨fun d hd => .inr (dataChars_group a b c d hd), ih⟩

/-- Settles O51: after the full groups' data characters (`encodeText_quads`) stands the padded quad of what is left, if anything. -/
theorem encodeLengthAndPadding : Obligations.EncodeLengthAndPadding := by
  intro input
  obtain ⟨quads, left, htext, hchars, hleft⟩ := encodeText_quads input
  refine ⟨encodeText_length input, fun h1 => ?_, fun h2 => ?_, fun h0 => ?_, encodeText_alphabet input⟩
  · obtain ⟨a, rfl⟩ := List.length_eq_one_iff.mp (hleft.trans h1)
    exact ⟨quads, _, _, htext, hchars.pad_not_mem⟩
  · obtain ⟨a, b, rfl⟩ := List.length_eq_two.mp (hleft.trans h2)
    have hbody : DataChars (quads ++ [firstChar a, secondChar a b]) := List.forall_mem_append.mpr ⟨hchars, dataChars_firstTwo a b⟩
    exact ⟨_, _, htext.trans (List.append_assoc quads [firstChar a, secondChar a b] _).symm, hbody.pad_not_mem⟩
  · obtain rfl := List.length_eq_zero_iff.mp (hleft.trans h0)
    rw [htext, encodeText, List.append_nil]
    exact hchars.pad_not_mem

end Sys2Proof.Machine

/-! ## Decode (43_decode.md R170 to R186)

A Decode PUSH is a case of DecByte. What the last one leaves is what a Decode owes for one more byte (`Owes.last`), for the quad it
closes and for nothing after termination. The rules on whole texts are inductions on the text that let the quad hold any values. -/

namespace Sys2Proof.Machine

/-! ### One byte that is not the last -/

/-- An accepted byte of a Decode that is not the last one goes through DecByte and ends nothing (41_stream_ports.md R132). -/
theorem exec_push_decByte {s : State} (b : Byte) (hb : s.busy = true) (hm : s.mode = .decode) (ho : s.obuf = [])
    (hc : s.inCount ≠ s.inLen) (hmore : s.inCount + 1#32 ≠ s.inLen) :
    exec (.push b) s = .next (decByte b { s with inCount := s.inCount + 1#32 }) :=
  (execPush_continues b ((inReady_iff s).mpr ⟨hb, hc, ho⟩) hmore).trans (congrArg _ (datapathByte_decode b hm))

/-- Settles O28: the VALUE case of DecByte adds the value or completes the quad. -/
theorem decodePushAddsAValue : Obligations.DecodePushAddsAValue := by
  intro s b v vs hb hm ho ht h hd hc hmore
  have hpush : exec (.push b) s = .next (decValue v { s with inCount := s.inCount + 1#32 }) :=
    (exec_push_decByte b hb hm ho hc hmore).trans (congrArg _ (decByte_value ht hd))
  refine ⟨fun h3 => hpush.trans (congrArg _ (decValue_adds v h h3)), fun h3 => ?_⟩
  rw [hpush, decValue_completes (s := { s with inCount := s.inCount + 1#32 }) v h h3, ho, List.nil_append]

/-- Settles O29: the PAD case of DecByte terminates an empty quad and closes any other. -/
theorem decodePadClosesOrTerminates : Obligations.DecodePadClosesOrTerminates := by
  intro s vs hb hm ho ht h hc hmore
  have hpush : exec (.push 0x3D#8) s = .next (decPad { s with inCount := s.inCount + 1#32 }) :=
    (exec_push_decByte 0x3D#8 hb hm ho hc hmore).trans (congrArg _ (decByte_pad ht rfl))
  refine ⟨fun hv => hpush.trans (congrArg _ (decPad_empty (h.cnt_eq_zero_iff.mpr hv))), fun hv => ?_⟩
  rw [hpush, decPad_closes (s := { s with inCount := s.inCount + 1#32 }) fun hz => hv (h.cnt_eq_zero_iff.mp hz),
    closeQuad_emits (s := { s with inCount := s.inCount + 1#32 }) h, ho, List.nil_append]

/-- Settles O30: the INVALID case of DecByte and its discard after termination set one flag each. -/
theorem decodeSkipsAndDiscards : Obligations.DecodeSkipsAndDiscards := by
  intro s b hb hm ho hc hmore
  have hpush := exec_push_decByte b hb hm ho hc hmore
  exact ⟨fun ht hd => hpush.trans (congrArg _ (decByte_invalid ht hd)), fun ht => hpush.trans (congrArg _ (decByte_afterTerm b ht))⟩

/-! ### The last byte -/

/-- DecEnd leaves TERM (43_decode.md R179). -/
@[simp] theorem decEnd_term (s : State) : (decEnd s).term = s.term := by
  unfold decEnd
  split <;> rfl

/-- A VALUE byte leaves TERM (43_decode.md R172, R173). -/
@[simp] theorem decValue_term (s : State) (v : Sextet) : (decValue v s).term = s.term := by
  unfold decValue
  dsimp only
  split <;> rfl

/-- Only `=` on an empty quad terminates decoding (43_decode.md R174, R177). -/
theorem decByte_term {s : State} {vs : List Sextet} (b : Byte) (h : HoldsValues s vs) :
    (decByte b s).term = (s.term || decide (vs = [] ∧ dlut b = .pad)) := by
  cases ht : s.term with
  | true => simp [decByte_afterTerm b ht, ht]
  | false =>
    cases hd : dlut b with
    | value v => simp [decByte_value ht hd, ht]
    | invalid => simp [decByte_invalid ht hd, ht]
    | pad =>
      rw [decByte_pad ht hd]
      by_cases hc : s.cnt = 0
      · simp [decPad_empty hc, h.cnt_eq_zero_iff.mp hc]
      · have hv : vs ≠ [] := fun e => hc (h.cnt_eq_zero_iff.mpr e)
        simp [decPad_closes hc, ht, hv]

/-- The end of input of a Decode leaves TERM as its last byte does (43_decode.md R177, R179). -/
theorem endOfInput_decByte_term {s : State} {vs : List Sextet} (b : Byte) (hm : s.mode = .decode) (h : HoldsValues s vs) :
    (endOfInput (datapathByte b s)).term = (s.term || decide (vs = [] ∧ dlut b = .pad)) := by
  rw [endOfInput_decode (by simpa using hm), decEnd_term, datapathByte_decode b hm, decByte_term b h]

/-- One byte of an unterminated Decode sets no TAIL (43_decode.md R178). -/
theorem flagsFrom_singleton_tail (vs : List Sextet) (b : Byte) : (flagsFrom vs [b]).tail = false := by
  unfold flagsFrom
  cases dlut b with
  | value v => dsimp only; split <;> rfl
  | pad => dsimp only; split <;> rfl
  | invalid => rfl

/-- What the last byte of a Decode and the end of input after it leave in OBUF and in the flags (43_decode.md R172 to R179). -/
theorem endOfInput_decByte {s : State} {vs : List Sextet} (b : Byte) (hm : s.mode = .decode) (h : HoldsValues s vs)
    (hnil : s.term = true → vs = []) (ho : s.obuf = []) :
    (endOfInput (datapathByte b s)).obuf = (if s.term then [] else decodeFrom vs [b]) ∧
      (endOfInput (datapathByte b s)).inv = (s.inv || (!s.term && (flagsFrom vs [b]).inv)) ∧
      (endOfInput (datapathByte b s)).lone = (s.lone || (!s.term && (flagsFrom vs [b]).lone)) ∧
      (endOfInput (datapathByte b s)).tail = (s.tail || (s.term && !isWs b)) := by
  cases ht : s.term with
  | true =>
    obtain rfl := hnil ht
    obtain ⟨hout, hflags⟩ := (Owes.terminated hm ht ⟨h.2, h.cnt_eq_zero_iff.mpr rfl⟩).last b ho
    obtain ⟨hinv, htail, hlone⟩ := DecodeFlags.mk.inj hflags
    simp [hout, hinv, htail, hlone, State.flags]
  | false =>
    obtain ⟨hout, hflags⟩ := (Owes.decode hm ht h).last b ho
    obtain ⟨hinv, htail, hlone⟩ := DecodeFlags.mk.inj hflags
    simp [hout, hinv, htail, hlone, State.flags, flagsFrom_singleton_tail]

/-- Settles O31: what the byte and the end of input leave, and CheckComplete on it. -/
theorem lastDecodePushEndsTheInput : Obligations.LastDecodePushEndsTheInput := by
  intro s b vs hb hm ho h hnil hlt hlast
  have hc : s.inCount ≠ s.inLen := by bv_omega
  have hlen : s.inLen ≠ 0#32 := by bv_omega
  have hpush := execPush_ends b ((inReady_iff s).mpr ⟨hb, hc, ho⟩) hlast
  obtain ⟨hout, hinv, hlone, htail⟩ := endOfInput_decByte (s := { s with inCount := s.inLen }) b hm h hnil ho
  have hterm := endOfInput_decByte_term (s := { s with inCount := s.inLen }) b hm h
  obtain ⟨⟨hacc, hcnt⟩, _⟩ := endOfInput_closes (datapathByte_fed (s := { s with inCount := s.inLen }) b (h.legal hm hnil) ho)
  refine ⟨_, hpush, (checkComplete_obuf _).trans hout, (checkComplete_acc _).trans hacc, (checkComplete_cnt _).trans hcnt, by simp,
    (checkComplete_term _).trans hterm, (checkComplete_inv _).trans hinv, (checkComplete_lone _).trans hlone,
    (checkComplete_tail _).trans htail, fun he => ?_, fun hne => ?_⟩
  · rw [checkComplete_obuf] at he
    rw [checkComplete_fires ⟨by simpa using hb, by simp, he⟩]
    simp [State.nooutAtCompletion, hlen]
  · rw [checkComplete_obuf] at hne
    rw [checkComplete_idle fun hf => hne hf.2.2]
    simp [hb]

/-! ### Decode of whole texts -/

section

variable {vs : List Sextet} {b : Byte} {v : Sextet}

/-- The end of the text closes the quad (43_decode.md R179). -/
@[simp] theorem decodeFrom_nil (vs : List Sextet) : decodeFrom vs [] = quadBytes vs := rfl

/-- A VALUE byte (43_decode.md R172, R173). -/
theorem decodeFrom_value (rest : List Byte) (h : dlut b = .value v) :
    decodeFrom vs (b :: rest) =
      if vs.length = 3 then quadBytes (vs ++ [v]) ++ decodeFrom [] rest else decodeFrom (vs ++ [v]) rest := by
  simp [decodeFrom, h]

/-- A PAD byte (43_decode.md R174, R177). -/
theorem decodeFrom_pad (rest : List Byte) (h : dlut b = .pad) :
    decodeFrom vs (b :: rest) = if vs = [] then [] else quadBytes vs ++ decodeFrom [] rest := by
  simp [decodeFrom, h]

/-- An INVALID byte (43_decode.md R175). -/
theorem decodeFrom_invalid (rest : List Byte) (h : dlut b = .invalid) : decodeFrom vs (b :: rest) = decodeFrom vs rest := by
  simp [decodeFrom, h]

/-- What the first byte of a text does depends on the rest only through what the rest decodes to (43_decode.md R183). -/
theorem decodeFrom_cons_congr {rest rest' : List Byte} (b : Byte) (h : ∀ ws, decodeFrom ws rest = decodeFrom ws rest') :
    decodeFrom vs (b :: rest) = decodeFrom vs (b :: rest') := by
  simp only [decodeFrom, h]

/-- Removing INVALID bytes changes no decoded byte, whatever the quad holds (43_decode.md R183). -/
theorem decodeFrom_filter {drop : Byte → Bool} (hdrop : ∀ b, drop b = true → dlut b = .invalid) (vs : List Sextet)
    (text : List Byte) :
    decodeFrom vs (text.filter fun b => !drop b) = decodeFrom vs text := by
  induction text generalizing vs with
  | nil => rfl
  | cons b rest ih =>
    cases hb : drop b with
    | true => rw [List.filter_cons_of_neg (by simp [hb]), ih, decodeFrom_invalid rest (hdrop b hb)]
    | false =>
      rw [List.filter_cons_of_pos (by simp [hb])]
      exact decodeFrom_cons_congr b ih

/-- A VALUE byte counts (43_decode.md R186). -/
theorem valueCount_value (rest : List Byte) (h : dlut b = .value v) : valueCount (b :: rest) = valueCount rest + 1 := by
  simp [valueCount, h]

/-- One byte more takes no VALUE byte away (43_decode.md R186). -/
theorem valueCount_le_cons (b : Byte) (rest : List Byte) : valueCount rest ≤ valueCount (b :: rest) :=
  (List.sublist_cons_self b rest).countP_le

/-- A quad gives at most three bytes for four values (43_decode.md R186). -/
theorem quadBytes_length_bound (vs : List Sextet) : 4 * (quadBytes vs).length ≤ 3 * vs.length := by
  unfold quadBytes
  split <;> simp

/-- A Decode delivers at most three quarters of the values held and to come (43_decode.md R186). -/
theorem decodeFrom_length_bound (vs : List Sextet) (text : List Byte) :
    4 * (decodeFrom vs text).length ≤ 3 * (vs.length + valueCount text) := by
  induction text generalizing vs with
  | nil => exact quadBytes_length_bound vs
  | cons b rest ih =>
    have hcount := valueCount_le_cons b rest
    have hempty : 4 * (decodeFrom [] rest).length ≤ 3 * (0 + valueCount rest) := ih []
    cases hd : dlut b with
    | value v =>
      rw [decodeFrom_value rest hd, valueCount_value rest hd]
      have hsnoc : (vs ++ [v]).length = vs.length + 1 := List.length_append
      split
      · have hquad := quadBytes_length_bound (vs ++ [v])
        rw [List.length_append]
        omega
      · have hopen := ih (vs ++ [v])
        omega
    | pad =>
      rw [decodeFrom_pad rest hd]
      split
      · simp
      · have hquad := quadBytes_length_bound vs
        rw [List.length_append]
        omega
    | invalid =>
      rw [decodeFrom_invalid rest hd]
      have hskip := ih vs
      omega

end

/-- Settles O53: `decodeFrom_filter` from the empty quad. -/
theorem skippedBytesDoNotChangeTheOutput : Obligations.SkippedBytesDoNotChangeTheOutput :=
  fun text _ hdrop => decodeFrom_filter hdrop [] text

/-- Settles O54: `decodeFrom_length_bound` from the empty quad; a text has no more VALUE bytes than bytes. -/
theorem decodeLengthBound : Obligations.DecodeLengthBound := by
  intro text
  have hbound : 4 * (decodeText text).length ≤ 3 * (0 + valueCount text) := decodeFrom_length_bound [] text
  have hcount : valueCount text ≤ text.length := List.countP_le_length
  omega

/-! ### Decode of an Encode -/

/-- A character that Encode wrote adds its value to the quad (30_encoding.md R80, R81). -/
@[simp] theorem decodeFrom_elut (vs : List Sextet) (v : Sextet) (rest : List Byte) :
    decodeFrom vs (elut v :: rest) =
      if vs.length = 3 then quadBytes (vs ++ [v]) ++ decodeFrom [] rest else decodeFrom (vs ++ [v]) rest :=
  decodeFrom_value rest (dlut_elut v)

/-- A `=` that Encode wrote closes the quad, or ends the output (30_encoding.md R82). -/
@[simp] theorem decodeFrom_padChar (vs : List Sextet) (rest : List Byte) :
    decodeFrom vs (padChar :: rest) = if vs = [] then [] else quadBytes vs ++ decodeFrom [] rest :=
  decodeFrom_pad rest rfl

/-- The flags at the end of the text (43_decode.md R176, R179). -/
@[simp] theorem flagsFrom_nil (vs : List Sextet) : flagsFrom vs [] = ⟨false, false, decide (vs.length = 1)⟩ := rfl

/-- A character that Encode wrote sets no flag (43_decode.md R172). -/
@[simp] theorem flagsFrom_elut (vs : List Sextet) (v : Sextet) (rest : List Byte) :
    flagsFrom vs (elut v :: rest) = if vs.length = 3 then flagsFrom [] rest else flagsFrom (vs ++ [v]) rest := by
  simp [flagsFrom, dlut_elut]

/-- A `=` that Encode wrote sets LONE after a single value, and what follows it on an empty quad TAIL (43_decode.md R176, R178). -/
@[simp] theorem flagsFrom_padChar (vs : List Sextet) (rest : List Byte) :
    flagsFrom vs (padChar :: rest) =
      if vs = [] then ⟨false, rest.any fun c => !isWs c, false⟩
      else { flagsFrom [] rest with lone := (flagsFrom [] rest).lone || decide (vs.length = 1) } := rfl

/-- The first byte of a quad is the byte whose bits its first two values took (43_decode.md R180). -/
theorem firstByte_of_slices (a : Byte) (low : BitVec 4) :
    a.extractLsb' 2 6 ++ (a.extractLsb' 0 2 ++ low).extractLsb' 4 2 = a := by
  rw [BitVec.extractLsb'_append_eq_left]
  exact BitVec.extractLsb'_append_extractLsb'

/-- The second byte, of the second and the third value (43_decode.md R180). -/
theorem secondByte_of_slices (b : Byte) (high low : BitVec 2) :
    (high ++ b.extractLsb' 4 4).extractLsb' 0 4 ++ (b.extractLsb' 0 4 ++ low).extractLsb' 2 4 = b := by
  rw [BitVec.extractLsb'_append_eq_left, BitVec.extractLsb'_append_eq_right]
  exact BitVec.extractLsb'_append_extractLsb'

/-- The third byte, of the third and the fourth value (43_decode.md R180). -/
theorem thirdByte_of_slices (c : Byte) (high : BitVec 4) :
    (high ++ c.extractLsb' 6 2).extractLsb' 0 2 ++ c.extractLsb' 0 6 = c := by
  rw [BitVec.extractLsb'_append_eq_right]
  exact BitVec.extractLsb'_append_extractLsb'

/-- A full group in front gives its quad in front (42_encode.md R151, R152). -/
theorem encodeText_cons_group (a b c : Byte) (rest : List Byte) :
    encodeText (a :: b :: c :: rest) = encodeText [a, b, c] ++ encodeText rest :=
  encodeText_group_append [a, b, c] rest rfl

/-- Decode takes a quad of characters back to the group's bytes (43_decode.md R184). -/
theorem decodeFrom_group (a b c : Byte) (rest : List Byte) :
    decodeFrom [] (encodeText [a, b, c] ++ rest) = [a, b, c] ++ decodeFrom [] rest := by
  simp [encodeText, firstChar, secondChar, thirdChar, fourthChar, quadBytes, firstByte_of_slices, secondByte_of_slices,
    thirdByte_of_slices]

/-- A quad of characters sets no flag (43_decode.md R184). -/
theorem flagsFrom_group (a b c : Byte) (rest : List Byte) : flagsFrom [] (encodeText [a, b, c] ++ rest) = flagsFrom [] rest := by
  simp [encodeText, firstChar, secondChar, thirdChar, fourthChar]

/-- Decode takes an Encode back to its input (43_decode.md R184). -/
theorem decodeText_encodeText (input : List Byte) : decodeText (encodeText input) = input := by
  unfold decodeText
  induction input using encodeText.induct with
  | case1 => rfl
  | case2 a => simp [encodeText, firstChar, secondChar, quadBytes, firstByte_of_slices]
  | case3 a b => simp [encodeText, firstChar, secondChar, thirdChar, quadBytes, firstByte_of_slices, secondByte_of_slices]
  | case4 a b c rest ih =>
    rw [encodeText_cons_group, decodeFrom_group, ih]
    rfl

/-- Decode of an Encode sets no flag: its first `=` closes a quad of two or three values, a second terminates (43_decode.md R184). -/
theorem flagsFrom_encodeText (input : List Byte) : flagsFrom [] (encodeText input) = ⟨false, false, false⟩ := by
  induction input using encodeText.induct with
  | case1 => rfl
  | case2 a => simp [encodeText, firstChar, secondChar]
  | case3 a b => simp [encodeText, firstChar, secondChar, thirdChar]
  | case4 a b c rest ih =>
    rw [encodeText_cons_group, flagsFrom_group, ih]

/-! ### Two operations in a row -/

/-- A part of an operation keeps the invariants. -/
abbrev Transfer.KeepsInvariant (r : Transfer) : Prop := ∀ out t, r = .next (out, t) → Invariant t

/-- Parts in order keep the invariants when each does. -/
theorem Transfer.KeepsInvariant.andThen {r : Transfer} {k : State → Transfer} (hr : r.KeepsInvariant)
    (hk : ∀ u, Invariant u → (k u).KeepsInvariant) : (r.andThen k).KeepsInvariant := by
  intro out t h
  unfold Transfer.andThen at h
  split at h
  · rename_i first u
    split at h <;> cases h
    rename_i hnext
    exact hk u (hr first u rfl) _ _ hnext
  · cases h
  · cases h

/-- One event. -/
theorem event_keepsInvariant {s : State} (i : Instr) (hs : Invariant s) : (event i s).KeepsInvariant := by
  intro out t h
  unfold event at h
  split at h <;> cases h
  rename_i hexec
  exact exec_invariant (s := s.openStep) hs hexec

/-- Any number of PULLs. -/
theorem drain_keepsInvariant {s : State} (n : Nat) (hs : Invariant s) : (drain n s).KeepsInvariant := by
  induction n generalizing s with
  | zero =>
    intro out t h
    cases h
    exact hs
  | succ n ih => exact (event_keepsInvariant .pull hs).andThen fun _ => ih

/-- The transfers of a whole input. -/
theorem feed_keepsInvariant {s : State} (input : List Byte) (hs : Invariant s) : (feed input s).KeepsInvariant := by
  induction input generalizing s with
  | nil =>
    intro out t h
    cases h
    exact hs
  | cons b rest ih =>
    exact (event_keepsInvariant (.push b) hs).andThen fun t ht => (drain_keepsInvariant t.obuf.length ht).andThen fun _ => ih

/-- A whole operation. -/
theorem operate_keepsInvariant {s : State} (start : Instr) (input : List Byte) (hs : Invariant s) :
    (operate start input s).KeepsInvariant :=
  (event_keepsInvariant _ hs).andThen fun _ ht => (event_keepsInvariant start ht).andThen fun _ => feed_keepsInvariant input

/-- Settles O52: the Encode leaves an idle block that meets the invariants (`operate_keepsInvariant`), so the Decode of its text delivers
what `decodeText_encodeText` and `flagsFrom_encodeText` say. -/
theorem decodeOfEncodeDeliversTheInput : Obligations.DecodeOfEncodeDeliversTheInput := by
  intro s ie ign input hb hinv hlen
  obtain ⟨t, hencode, hidle, _⟩ := encodeOperationDeliversTheText s ie ign input hb hinv (by omega)
  have ht : Invariant t := operate_keepsInvariant _ _ hinv _ _ hencode
  obtain ⟨u, hdecode, hbusy, hdone, hnoout, hflags, _⟩ :=
    decodeOperationDeliversTheBytes t ie ign (encodeText input) hidle ht ((encodeText_length input).trans_lt hlen)
  rw [decodeText_encodeText] at hdecode hnoout
  obtain ⟨hi, htail, hlone⟩ := DecodeFlags.mk.inj (hflags.trans (flagsFrom_encodeText input))
  have hsome : ¬ (encodeText input ≠ [] ∧ input = []) := by
    rintro ⟨hne, rfl⟩
    exact hne rfl
  exact ⟨_, t, u, hencode, hdecode, hbusy, hdone, hnoout.trans (decide_eq_false hsome), hi, htail, hlone⟩

end Sys2Proof.Machine

/-! ## Exceptions (60_exceptions.md R200, R202)

Every transaction completes; a command that a running operation turns away is reported by CMDERR, which stays until WR_STATUS. -/

namespace Sys2Proof.Machine

/-- Settles O33: `exec_completes`, in which only PULL needs a case split, on OBUF. -/
theorem everyTransactionCompletes : Obligations.EveryTransactionCompletes := exec_completes

/-- Settles O45: what one event moves (`exec_moves`), for CMDERR. -/
theorem cmderrIsStickyAndOnlyForBusyCommands : Obligations.CmderrIsStickyAndOnlyForBusyCommands := by
  intro i s t h
  have moved := exec_moves h
  refine ⟨fun hs ht => ?_, fun hs ht => ?_⟩
  · obtain ⟨hbusy, ⟨ie, ign, hstart⟩ | ⟨d, hwrite⟩⟩ := moved.cmderrSet hs ht
    · exact ⟨hbusy, .inl ⟨ie, ign, hstart.imp Eq.symm Eq.symm⟩⟩
    · exact ⟨hbusy, .inr ⟨d, hwrite.symm⟩⟩
  · obtain ⟨d, hwrite, hd⟩ := moved.cmderrCleared hs ht
    exact ⟨d, hwrite.symm, hd⟩

end Sys2Proof.Machine

/-! ## Events in the same cycle (70_reset_and_hazards.md R231)

A cycle without reset is its register access and then the transfer enabled at its start (`step_cycle_of_access`); which transfer that is
is said by a lemma per case. -/

namespace Sys2Proof.Machine

/-- in_ready and out_valid are never both 1: a PUSH needs OBUF empty, a PULL needs it non-empty. -/
theorem outValid_eq_false_of_inReady {s : State} (h : s.inReady = true) : s.outValid = false := by
  obtain ⟨_, _, hempty⟩ := (inReady_iff s).mp h
  simp [State.outValid, hempty]

/-- A byte offered with in_ready = 1 at the start of the cycle is the transfer (41_stream_ports.md R130). -/
theorem Cycle.streamEvent_eq_push {c : Cycle} {s : State} (hin : c.inValid = true) (hr : s.inReady = true) :
    c.streamEvent s = some (.push c.inData) := by
  simp [Cycle.streamEvent, hin, hr]

/-- A byte taken with out_valid = 1 at the start of the cycle is the transfer (41_stream_ports.md R133): in_ready is 0 then. -/
theorem Cycle.streamEvent_eq_pull {c : Cycle} {s : State} (hout : c.outReady = true) (hv : s.outValid = true) :
    c.streamEvent s = some .pull := by
  have hr : s.inReady = false := Bool.eq_false_iff.mpr fun hr => by simp [outValid_eq_false_of_inReady hr] at hv
  simp [Cycle.streamEvent, hout, hv, hr]

/-- With neither transfer both offered and enabled there is none; `Cycle.streamEvent_eq_none` is the case of nothing offered. -/
theorem Cycle.streamEvent_eq_none_of_not_enabled {c : Cycle} {s : State} (hpush : c.inValid = false ∨ s.inReady = false)
    (hpull : c.outReady = false ∨ s.outValid = false) : c.streamEvent s = none := by
  have hp : (c.inValid && s.inReady) = false := Bool.and_eq_false_iff.mpr hpush
  have hq : (c.outReady && s.outValid) = false := Bool.and_eq_false_iff.mpr hpull
  simp [Cycle.streamEvent, hp, hq]

/-- A cycle without reset, whose register access leaves `u`, goes on from `u` with the transfer judged at the start of the cycle. -/
theorem step_cycle_of_access {s u : State} {c : Cycle} {rest : List HostInput} (hin : s.inputs = .cycle c :: rest) (hrst : c.rst = false)
    (hu : execIf c.regEvent { s.openStep with inputs := rest } = .next u) : step s = execIf (c.streamEvent s) u := by
  rw [step_cycle hin, runCycle, hrst, hu]
  rfl

/-- Settles O37: `u` is what the register access leaves, and the step goes on from it (`step_cycle_of_access`). -/
theorem registerAccessPrecedesTheTransfer : Obligations.RegisterAccessPrecedesTheTransfer := by
  intro s c rest hin hrst
  obtain ⟨u, hu⟩ := execIf_completes c.regEvent { s.openStep with inputs := rest }
  have hstep := step_cycle_of_access hin hrst hu
  refine ⟨outValid_eq_false_of_inReady, u, fun hsel => ?_, fun hsel hwe => ?_, fun hsel hwe => ?_, fun hoffer hr => ?_,
    fun htake hv => ?_, fun hpush hpull => ?_⟩
  · have noAccess : c.regEvent = none := by simp [Cycle.regEvent, hsel]
    rw [noAccess] at hu
    exact (Host.Outcome.next.inj hu).symm
  · have write : c.regEvent = some (writeInstr (wordIndex c.regAddr) c.regWdata) := by simp [Cycle.regEvent, hsel, hwe]
    rwa [write] at hu
  · have read : c.regEvent = some (readInstr (wordIndex c.regAddr)) := by simp [Cycle.regEvent, hsel, hwe]
    rwa [read] at hu
  · rwa [Cycle.streamEvent_eq_push hoffer hr] at hstep
  · rwa [Cycle.streamEvent_eq_pull htake hv] at hstep
  · rwa [Cycle.streamEvent_eq_none_of_not_enabled hpush hpull] at hstep

end Sys2Proof.Machine
